-- ==== Sys2Proof/Word.lean ====
section
/-!
DEFINITION. The word types and the closed vocabularies the whole model speaks in: 32-bit words
(spec R11), register numbers (R20, R102), the two encoding modes (R29) and the two entry widths (R34).
-/

namespace Sys2Proof

/-- A 32-bit word: what a register, a memory word or a stored instruction holds (R7, R11). -/
abbrev Word := BitVec 32

/-- One byte of the model's main memory (log entry 1). -/
abbrev Byte := BitVec 8

/-- A register number `0 .. 15`; 15 is the program counter (R20, R21). -/
abbrev Reg := Fin 16

/-- A register number `0 .. 7`, all that a 3-bit compact field can name (R22, R102). -/
abbrev LowReg := Fin 8

/-- The encoding mode (R29). -/
inductive Mode where
  | wide
  | compact
  deriving DecidableEq, Repr

/-- The width tag of an instruction-store entry, 16 or 32 bits (R34). -/
inductive Width where
  | w16
  | w32
  deriving DecidableEq, Repr

/-- `uint(v)` of R11. -/
abbrev uint (v : Word) : Nat := v.toNat

/-- `sint(v)` of R11. -/
abbrev sint (v : Word) : Int := v.toInt

/-- `trunc32(n)` of R11: the word whose `uint` is `n mod 2^32`, for any integer `n`. -/
def trunc32 (n : Int) : Word := BitVec.ofInt 32 n

end Sys2Proof
end

