-- ==== Sys2Proof/Config.lean ====
section
/-!
DEFINITION. What an implementation fixes: the cache geometry of spec R8, the slot counts derived from
it (R9, R192), and the geometry `State.reset` is configured with. The spec leaves nothing else open and
calls nothing undefined, so there is no free value here.
-/

namespace Sys2Proof

/-- The five parameters of `configure` (R8, R232), in bytes. -/
structure Geometry where
  /-- `BLOCK_SIZE`: bytes per line of both L1 caches. -/
  blockSize : Nat
  /-- `L1I_CAPACITY`: bytes of the L1 instruction cache. -/
  l1iCapacity : Nat
  /-- `L1D_CAPACITY`: bytes of the L1 data cache. -/
  l1dCapacity : Nat
  /-- `L2_BLOCK_SIZE`: bytes per line of the unified L2. -/
  l2BlockSize : Nat
  /-- `L2_CAPACITY`: bytes of the unified L2. -/
  l2Capacity : Nat
  deriving DecidableEq, Repr

/-- `nI` (R9, R192). -/
def Geometry.l1iSlots (g : Geometry) : Nat := g.l1iCapacity / g.blockSize

/-- `nD` (R9, R192). -/
def Geometry.l1dSlots (g : Geometry) : Nat := g.l1dCapacity / g.blockSize

/-- `n2` (R9, R192). -/
def Geometry.l2Slots (g : Geometry) : Nat := g.l2Capacity / g.l2BlockSize

/-- The geometry of `State.reset`. DESIGN CHOICE (log entry 4), unsafe for claims about counters made
from `State.reset` alone: the spec gives no default (R8, D19); these are the values of its program P1.
The geometry is a field of the state, so every theorem about a step quantifies over all of them. -/
def Config.geometry : Geometry :=
  { blockSize := 8, l1iCapacity := 32, l1dCapacity := 32, l2BlockSize := 8, l2Capacity := 32 }

end Sys2Proof
end

