-- ==== Sys2Proof/Syntax.lean ====
section
/-!
DEFINITION. The instruction set: one constructor per row of spec/opcode_table.json (R80, R113), with the
operand names of the spec. Bits that R84 to R87 mark as ignored are not operands (R91). An UNKNOWN word is no
instruction: the decoder answers it by its own name (R123, log entry 7).
-/

namespace Sys2Proof

/-- The sixteen instruction forms of R80. Register operands come in the order `Rd`, `Rn`, `Rm`. -/
inductive Instr where
  /-- `AND Rd,Rn,Rm` (R131). -/
  | and (rd rn rm : Reg)
  /-- `EOR Rd,Rn,Rm` (R132). -/
  | eor (rd rn rm : Reg)
  /-- `SUB Rd,Rn,Rm` (R133). -/
  | sub (rd rn rm : Reg)
  /-- `ADD Rd,Rn,Rm` (R134). -/
  | add (rd rn rm : Reg)
  /-- `CMP Rn,Rm` (R136). -/
  | cmp (rn rm : Reg)
  /-- `ORR Rd,Rn,Rm` (R135). -/
  | orr (rd rn rm : Reg)
  /-- `MOV Rd,#imm8` (R137). -/
  | mov (rd : Reg) (imm : BitVec 8)
  /-- `LDR Rd,[Rn,#imm8]`, the offset in words (R151). -/
  | ldr (rd rn : Reg) (imm : BitVec 8)
  /-- `STR Rd,[Rn,#imm8]`, the offset in words (R152). -/
  | str (rd rn : Reg) (imm : BitVec 8)
  /-- `B off24`, the offset in words (R160). -/
  | b (off : BitVec 24)
  /-- Wide `BX Rm` (R161). -/
  | bx (rm : Reg)
  /-- `C.LSL Rd,Rn,#shamt5` (R171). -/
  | cLsl (rd rn : LowReg) (shamt : BitVec 5)
  /-- `C.ADD Rd,Rn,Rm` (R172). -/
  | cAdd (rd rn rm : LowReg)
  /-- `C.SUB Rd,Rn,Rm` (R173). -/
  | cSub (rd rn rm : LowReg)
  /-- `C.MOV Rd,#imm8` (R174). -/
  | cMov (rd : LowReg) (imm : BitVec 8)
  /-- `C.BX Rm` (R162). -/
  | cBx (rm : Reg)
  deriving DecidableEq, Repr

end Sys2Proof
end

