-- ==== Sys2Proof/WellFormed.lean ====
section
/-!
DEFINITION. The checks on data whose type does not already carry them: an instruction form against the mode it
exists in (R80), and a cache geometry against the constraints of R8. Operand fields carry their ranges in
their types (`Reg`, `LowReg`, `BitVec`), so an instruction has no other way to be ill-formed.
-/

namespace Sys2Proof

/-- The encoding mode an instruction form exists in (R80, R175). -/
def Instr.mode : Instr → Mode
  | .and _ _ _ | .eor _ _ _ | .sub _ _ _ | .add _ _ _ | .cmp _ _ | .orr _ _ _ => .wide
  | .mov _ _ | .ldr _ _ _ | .str _ _ _ | .b _ | .bx _ => .wide
  | .cLsl _ _ _ | .cAdd _ _ _ | .cSub _ _ _ | .cMov _ _ | .cBx _ => .compact

/-- `i` is an instruction of mode `m`: the decoder of the other mode never answers it (R80). -/
def Instr.wellFormed (m : Mode) (i : Instr) : Bool := i.mode == m

/-- A positive integer that is a power of two (R8). -/
def isPowerOfTwo (n : Nat) : Bool := 2 ^ n.log2 == n

/-- The constraints of R8: five powers of two, each capacity at least its block size (R250, D19). -/
def Geometry.legal (g : Geometry) : Bool :=
  isPowerOfTwo g.blockSize && isPowerOfTwo g.l1iCapacity && isPowerOfTwo g.l1dCapacity
    && isPowerOfTwo g.l2BlockSize && isPowerOfTwo g.l2Capacity
    && decide (g.blockSize ≤ g.l1iCapacity) && decide (g.blockSize ≤ g.l1dCapacity)
    && decide (g.l2BlockSize ≤ g.l2Capacity)

end Sys2Proof
end

