-- ==== Sys2Proof/Machine/State.lean ====
section
/-!
DEFINITION. Every piece of state the spec gives the machine (R20 to R37), as plain data, and its value after
reset (R38). INVENTORY.md lists each field with its rule.
-/

namespace Sys2Proof.Machine

/-- The run state (R31). -/
inductive RunState where
  | running
  | halted
  deriving DecidableEq, Repr

/-- One cache line (R35, R191): a tag and two bits, no data. -/
structure Line where
  tag : Nat
  dirty : Bool
  valid : Bool
  deriving DecidableEq, Repr

/-- The reset value of a line (R35, R38). -/
def Line.invalid : Line := { tag := 0, dirty := false, valid := false }

/-- One entry of the instruction store (R34): the word widened to 32 bits and its width tag. -/
structure Entry where
  word : Word
  width : Width
  deriving DecidableEq, Repr

/-- Main memory (R33) as byte cells at addresses `0 .. 4095`, in the canonical form of `Memory.wf`: addresses
strictly rising, no cell holding the 0 that an unlisted byte reads as (log entries 1 and 2). -/
abbrev Memory := List Host.Cell

/-- The cache hierarchy (R190): its geometry, three arrays of lines (R35) and four unbounded counters (R36). -/
structure Hierarchy where
  /-- The geometry `configure` fixed; no step changes it (R232). -/
  geometry : Geometry
  /-- `L1I[0 .. nI-1]`. -/
  l1i : List Line
  /-- `L1D[0 .. nD-1]`. -/
  l1d : List Line
  /-- `L2[0 .. n2-1]`. -/
  l2 : List Line
  iMiss : Nat
  dMiss : Nat
  l2Miss : Nat
  writebacks : Nat
  deriving DecidableEq, Repr

/-- The machine's state. There is nothing else (R32, R37). -/
structure State where
  /-- `x[0] .. x[15]`; `x[15]` is the program counter (R20, R23). -/
  regs : Vector Word 16
  /-- Zero flag (R26). -/
  z : Bool
  /-- Negative flag (R26). -/
  n : Bool
  /-- Carry, held and never computed (R27). -/
  c : Bool
  /-- Overflow, held and never computed (R27). -/
  v : Bool
  /-- Encoding mode (R29). -/
  mode : Mode
  /-- `FLT`, the sticky fault latch: bit 0 `MEM_RANGE`, bit 1 `PC_WRITE` (R30). -/
  flt : BitVec 2
  /-- Run state (R31). -/
  run : RunState
  /-- Main memory `M` (R33). -/
  mem : Memory
  /-- Instruction store `IS` (R34); no step changes it (R54). -/
  store : List Entry
  /-- The cache hierarchy with its counters (R35, R36). -/
  cache : Hierarchy
  deriving DecidableEq, Repr

/-- The two run-time faults of R241 with the `info` the diagnostic records. They do not stop the machine: R243
makes each a next state (log entry 8). -/
inductive RuntimeFault where
  /-- `MEM_RANGE`, code 1: LDR or STR whose effective address is outside `[0, 4096)` (R242). -/
  | memRange (ea : Int)
  /-- `PC_WRITE`, code 2: a wide AND, EOR, SUB, ADD, ORR, MOV or LDR whose `Rd` is 15 (R244). -/
  | pcWrite (rd : Reg)
  deriving DecidableEq, Repr

/-- Why a step could stop with a fault. The spec gives the machine no fault that stops it (R240, R243). -/
inductive Fault where
  /-- Raised by `step` alone, if an in-range program counter resolved to no entry. Safe: R52 says it always resolves,
  so this is never raised (obligation StepAlwaysAnswersNext). -/
  | unresolvedFetch
  deriving DecidableEq, Repr

/-- Why an instruction could have no meaning. -/
inductive Refusal where
  /-- Raised by an arm of `exec` whose instruction has no meaning yet; no arm does. Safe: a refusal proves nothing. -/
  | notModelled (mnemonic : String)
  deriving DecidableEq, Repr

/-- The freshly constructed hierarchy: every line invalid, every counter 0 (R38, R232). -/
def Hierarchy.cold (g : Geometry) : Hierarchy where
  geometry := g
  l1i := List.replicate g.l1iSlots Line.invalid
  l1d := List.replicate g.l1dSlots Line.invalid
  l2 := List.replicate g.l2Slots Line.invalid
  iMiss := 0
  dMiss := 0
  l2Miss := 0
  writebacks := 0

/-- The reset state of R38 under geometry `g`, with the instruction store `is`, which reset does not clear
(R34; log entry 14). -/
def State.resetWith (g : Geometry) (is : List Entry) : State where
  regs := Vector.replicate 16 0#32
  z := false
  n := false
  c := false
  v := false
  mode := .wide
  flt := 0#2
  run := .running
  mem := []
  store := is
  cache := Hierarchy.cold g

/-- The machine right after `configure` (R38, R270): an empty instruction store, no preload, and the geometry
of log entry 4. -/
def State.reset : State := State.resetWith Config.geometry []

end Sys2Proof.Machine
end

