-- ==== Sys2Proof/Machine/Ops.lean ====
section
/-!
DEFINITION. The named operations the meanings are written over: registers (R12, R20), main memory (R56 to R59) and
the one shared fault operation (R243). Every access to a register or to memory goes through these.
-/

namespace Sys2Proof.Machine

/-! ## Registers -/

/-- `x[i]`; register 15 reads the address of the instruction being executed (R12, R24). -/
def State.readReg (s : State) (r : Reg) : Word := s.regs[r]

/-- `x[i] <- v` (R12). The meanings that may not name 15 check `destFault` first (R22). -/
def State.writeReg (s : State) (r : Reg) (v : Word) : State := { s with regs := s.regs.set r v }

/-- `pc`, another name for `x[15]` (R12). -/
def State.pc (s : State) : Word := s.readReg 15

/-- `pc <- t` (R12). -/
def State.setPc (s : State) (t : Word) : State := s.writeReg 15 t

/-- `mode <- m` (R29): only the branch-exchange meaning calls it. -/
def State.setMode (s : State) (m : Mode) : State := { s with mode := m }

/-! ## Main memory -/

/-- `MEM_WORDS` (R9). -/
def memWords : Nat := 1024

/-- `MEM_BYTES` (R9). -/
def memBytes : Nat := 4096

/-- What a byte no cell lists reads as: the reset contents of R33 (log entry 2). -/
def unlistedByte : Byte := 0#8

/-- The byte at an address of the data space. -/
def Memory.readByte : Memory → Nat → Byte
  | [], _ => unlistedByte
  | (b, u) :: m, a => if a = b then u else Memory.readByte m a

/-- Put a cell in front, unless it holds what an unlisted byte reads as. -/
def Memory.cell (a : Nat) (v : Byte) (m : Memory) : Memory :=
  if v = unlistedByte then m else (a, v) :: m

/-- Write one byte, keeping the cells in rising order and canonical. -/
def Memory.writeByte : Memory → Nat → Byte → Memory
  | [], a, v => Memory.cell a v []
  | (b, u) :: m, a, v =>
    if a < b then Memory.cell a v ((b, u) :: m)
    else if a = b then Memory.cell a v m
    else (b, u) :: Memory.writeByte m a v

/-- The canonical form: addresses strictly rising and inside the data space, no cell equal to what an unlisted byte
reads as. -/
abbrev Memory.wf (m : Memory) : Prop :=
  m.Pairwise (fun c d => c.1 < d.1) ∧ ∀ c ∈ m, c.2 ≠ unlistedByte ∧ c.1 < memBytes

/-- `M[k]` (R33). The four cells of a word are put together lowest byte first; no rule lets a program or the host
see that order (R60; DESIGN CHOICE, safe, log entry 1). -/
def Memory.word (m : Memory) (k : Nat) : Word :=
  m.readByte (4 * k + 3) ++ m.readByte (4 * k + 2) ++ m.readByte (4 * k + 1) ++ m.readByte (4 * k)

/-- `M[k] <- v`, all 32 bits and no other word (R59). -/
def Memory.setWord (m : Memory) (k : Nat) (v : Word) : Memory :=
  (((m.writeByte (4 * k) (v.extractLsb' 0 8)).writeByte (4 * k + 1) (v.extractLsb' 8 8)).writeByte
    (4 * k + 2) (v.extractLsb' 16 8)).writeByte (4 * k + 3) (v.extractLsb' 24 8)

/-- `MemRead(a, 4)`: the word that contains byte address `a`, its two low bits dropped (R56, R58). -/
def State.memRead (s : State) (a : Nat) : Word := s.mem.word (a / 4)

/-- `MemWrite(a, 4, v)` (R59). -/
def State.memWrite (s : State) (a : Nat) (v : Word) : State := { s with mem := s.mem.setWord (a / 4) v }

/-! ## Taking a fault, R243 -/

/-- The cause codes of R241. -/
def RuntimeFault.code : RuntimeFault → Nat
  | .memRange _ => 1
  | .pcWrite _ => 2

/-- The latch bit of a cause (R30, R241). -/
def RuntimeFault.latchBit : RuntimeFault → BitVec 2
  | .memRange _ => 0b01#2
  | .pcWrite _ => 0b10#2

/-- `FLT[bit of cause] <- 1`, sticky (R30, R243). -/
def State.latchFault (s : State) (f : RuntimeFault) : State := { s with flt := s.flt ||| f.latchBit }

/-- `raise Fault(cause, info)` (R243): the sticky bit is set and the instruction abandoned; the machine stays
Running and the driver loop advances the program counter as after any other instruction. There is no trap entry and
no return from one (R248, R249); the diagnostic record is `faultRaised`'s (log entry 9). -/
def raiseFault (f : RuntimeFault) (s : State) : Host.Outcome State Fault Refusal := .next (s.latchFault f)

end Sys2Proof.Machine
end

