-- ==== Sys2Proof/Machine/Flags.lean ====
section
/-!
DEFINITION. The flag computation. There is one, `SetZN` (R26); C and V are held and never written (R27).
-/

namespace Sys2Proof.Machine

/-- The `Z` of a result: `uint(v) == 0` (R26). -/
def zeroFlag (v : Word) : Bool := v == 0#32

/-- The `N` of a result: bit 31 (R26). -/
def negativeFlag (v : Word) : Bool := v.getLsbD 31

/-- `SetZN(v)` (R12, R26): both flags together, never one alone. -/
def State.setZN (s : State) (v : Word) : State := { s with z := zeroFlag v, n := negativeFlag v }

end Sys2Proof.Machine
end

