-- ==== Sys2Proof/Machine/Operands.lean ====
section
/-!
DEFINITION. Every operand form the spec gives: low registers (R102), the zero-extended immediate (R98), the scaled
load/store offset and effective address (R99, R150), the branch displacement (R100), and the two operand checks that raise
a fault (R242, R244).
-/

namespace Sys2Proof.Machine

/-- A 3-bit register field names the register of the same number (R102). -/
def lowReg (r : LowReg) : Reg := ⟨r.val, Nat.lt_trans r.isLt (by decide)⟩

/-- `zext_32(imm8)` (R98). -/
def zextImm (imm : BitVec 8) : Word := imm.zeroExtend 32

/-- `EA = sint(x[Rn]) + 4 * imm8`, a mathematical integer, no wrap-around (R99, R150). -/
def State.effectiveAddress (s : State) (rn : Reg) (imm : BitVec 8) : Int := sint (s.readReg rn) + 4 * (imm.toNat : Int)

/-- `sext_32(off24 << 2, 26)` (R100). -/
def branchDisplacement (off : BitVec 24) : Word := (off ++ 0b00#2).signExtend 32

/-- `PC_WRITE`, when a destination is register 15 (R244). -/
def destFault (rd : Reg) : Option RuntimeFault := if rd = 15 then some (.pcWrite rd) else none

/-- `MEM_RANGE`, when an effective address is outside `[0, 4096)`; tested on the integer, before any division
(R57, R242). -/
def addressFault (ea : Int) : Option RuntimeFault := if ea < 0 ∨ ea ≥ memBytes then some (.memRange ea) else none

end Sys2Proof.Machine
end

