-- ==== Sys2Proof/Machine/WideData.lean ====
section
/-!
DEFINITION. The wide data-processing instructions (R130 to R140).
-/

namespace Sys2Proof.Machine

/-- Write a result and set Z and N from it: the last two lines of R130's pseudocode. -/
def State.writeResult (s : State) (rd : Reg) (r : Word) : State := (s.writeReg rd r).setZN r

/-- `trunc32(uint(a) - uint(b))` (R133, R138). -/
def subWord (a b : Word) : Word := a - b

/-- `trunc32(uint(a) + uint(b))` (R134, R138). -/
def addWord (a b : Word) : Word := a + b

/-- The common behaviour of AND, EOR, SUB, ADD and ORR (R130, R139). -/
def execDataProcessing (op : Word → Word → Word) (rd rn rm : Reg) (s : State) : Host.Outcome State Fault Refusal :=
  match destFault rd with
  | some f => raiseFault f s
  | none => .next (s.writeResult rd (op (s.readReg rn) (s.readReg rm)))

/-- AND (R131). -/
def execAnd (rd rn rm : Reg) (s : State) : Host.Outcome State Fault Refusal :=
  execDataProcessing (fun a b => a &&& b) rd rn rm s

/-- EOR (R132). -/
def execEor (rd rn rm : Reg) (s : State) : Host.Outcome State Fault Refusal :=
  execDataProcessing (fun a b => a ^^^ b) rd rn rm s

/-- SUB (R133). -/
def execSub (rd rn rm : Reg) (s : State) : Host.Outcome State Fault Refusal :=
  execDataProcessing subWord rd rn rm s

/-- ADD (R134). -/
def execAdd (rd rn rm : Reg) (s : State) : Host.Outcome State Fault Refusal :=
  execDataProcessing addWord rd rn rm s

/-- ORR (R135). -/
def execOrr (rd rn rm : Reg) (s : State) : Host.Outcome State Fault Refusal :=
  execDataProcessing (fun a b => a ||| b) rd rn rm s

/-- CMP (R136): flags only, no register and no fault; the `Rd` field is ignored. -/
def execCmp (rn rm : Reg) (s : State) : Host.Outcome State Fault Refusal :=
  .next (s.setZN (subWord (s.readReg rn) (s.readReg rm)))

/-- MOV (immediate), wide form (R137). -/
def execMov (rd : Reg) (imm : BitVec 8) (s : State) : Host.Outcome State Fault Refusal :=
  match destFault rd with
  | some f => raiseFault f s
  | none => .next (s.writeResult rd (zextImm imm))

end Sys2Proof.Machine
end

