-- ==== Sys2Proof/Machine/CompactData.lean ====
section
/-!
DEFINITION. The compact data-processing instructions (R170 to R175). Their destinations are `R0` to `R7`, so `PC_WRITE`
cannot arise.
-/

namespace Sys2Proof.Machine

/-- `trunc32(uint(a) << shamt5)` (R171). -/
def shiftLeftWord (a : Word) (shamt : BitVec 5) : Word := a <<< shamt.toNat

/-- The common behaviour of R170. -/
def execCompactResult (rd : LowReg) (r : Word) (s : State) : Host.Outcome State Fault Refusal :=
  .next (s.writeResult (lowReg rd) r)

/-- LSL (R171). -/
def execCompactLsl (rd rn : LowReg) (shamt : BitVec 5) (s : State) : Host.Outcome State Fault Refusal :=
  execCompactResult rd (shiftLeftWord (s.readReg (lowReg rn)) shamt) s

/-- ADD, compact form (R172). -/
def execCompactAdd (rd rn rm : LowReg) (s : State) : Host.Outcome State Fault Refusal :=
  execCompactResult rd (addWord (s.readReg (lowReg rn)) (s.readReg (lowReg rm))) s

/-- SUB, compact form (R173). -/
def execCompactSub (rd rn rm : LowReg) (s : State) : Host.Outcome State Fault Refusal :=
  execCompactResult rd (subWord (s.readReg (lowReg rn)) (s.readReg (lowReg rm))) s

/-- MOV, compact form (R174). -/
def execCompactMov (rd : LowReg) (imm : BitVec 8) (s : State) : Host.Outcome State Fault Refusal :=
  execCompactResult rd (zextImm imm) s

end Sys2Proof.Machine
end

