-- ==== Sys2Proof/Machine/Control.lean ====
section
/-!
DEFINITION. Control transfer: B and the two forms of BX (R160 to R166).
-/

namespace Sys2Proof.Machine

/-- The constant of B's target; it is no property of reading register 15 (R160, R275). -/
def branchBias : Word := 8#32

/-- B (R160): `pc <- trunc32(uint(pc) + uint(d) + 8)`. -/
def execB (off : BitVec 24) (s : State) : Host.Outcome State Fault Refusal :=
  .next (s.setPc (s.pc + branchDisplacement off + branchBias))

/-- The mode a branch-exchange target selects (R106, R161). -/
def targetMode (t : Word) : Mode := if t.getLsbD 0 then .compact else .wide

/-- The shared behaviour of both BX forms (R161, R162). -/
def execBranchExchange (rm : Reg) (s : State) : Host.Outcome State Fault Refusal :=
  let t := s.readReg rm
  .next ((s.setPc (t &&& 0xFFFFFFFE#32)).setMode (targetMode t))

/-- BX, wide form (R161). -/
def execBx (rm : Reg) (s : State) : Host.Outcome State Fault Refusal := execBranchExchange rm s

/-- BX, compact form (R162). -/
def execCompactBx (rm : Reg) (s : State) : Host.Outcome State Fault Refusal := execBranchExchange rm s

end Sys2Proof.Machine
end

