-- ==== Sys2Proof/Machine/Cache.lean ====
section
/-!
DEFINITION. The cache hierarchy's three operations, counters and cost (R190 to R204). It holds no data and no
instruction reads it (R203, R206).
-/

namespace Sys2Proof.Machine

/-- `index(a, B, n)` (R193). -/
def cacheIndex (a blockSize slots : Nat) : Nat := a / blockSize % slots

/-- `tag(a, B, n)` (R193). -/
def cacheTag (a blockSize slots : Nat) : Nat := a / blockSize / slots

/-- The line of an array at an index; a state whose array is too short, which no run reaches, reads an invalid line
(log entry 13). -/
def lineAt (lines : List Line) (i : Nat) : Line := lines.getD i Line.invalid

/-- A hit: the slot is valid and its tag matches (R194). -/
def Line.hits (l : Line) (tag : Nat) : Bool := l.valid && l.tag == tag

/-- `CheckL2(a)` (R200). -/
def Hierarchy.checkL2 (h : Hierarchy) (a : Nat) : Hierarchy :=
  let i := cacheIndex a h.geometry.l2BlockSize h.geometry.l2Slots
  let t := cacheTag a h.geometry.l2BlockSize h.geometry.l2Slots
  if (lineAt h.l2 i).hits t then h
  else { h with l2Miss := h.l2Miss + 1, l2 := h.l2.set i { tag := t, dirty := false, valid := true } }

/-- `AccessInstruction(a)` (R196). -/
def Hierarchy.accessInstruction (h : Hierarchy) (a : Nat) : Hierarchy :=
  let i := cacheIndex a h.geometry.blockSize h.geometry.l1iSlots
  let t := cacheTag a h.geometry.blockSize h.geometry.l1iSlots
  if (lineAt h.l1i i).hits t then h
  else
    { h with iMiss := h.iMiss + 1, l1i := h.l1i.set i { tag := t, dirty := false, valid := true } }.checkL2 a

/-- `AccessData(a, isStore)` (R198, R199). -/
def Hierarchy.accessData (h : Hierarchy) (a : Nat) (isStore : Bool) : Hierarchy :=
  let i := cacheIndex a h.geometry.blockSize h.geometry.l1dSlots
  let t := cacheTag a h.geometry.blockSize h.geometry.l1dSlots
  let l := lineAt h.l1d i
  if l.hits t then
    if isStore then { h with l1d := h.l1d.set i { l with dirty := true } } else h
  else
    { h with
      dMiss := h.dMiss + 1
      writebacks := h.writebacks + (if l.valid && l.dirty then 1 else 0)
      l1d := h.l1d.set i { tag := t, dirty := isStore, valid := true } }.checkL2 a

/-- `2 * cost`, the integer form of R202 (D28). -/
def Hierarchy.twiceCost (h : Hierarchy) : Nat := h.iMiss + 2 * (h.dMiss + h.l2Miss + h.writebacks)

/-- `cost = 0.5 * iMiss + dMiss + l2Miss + writebacks`, an exact rational (R202, D28). -/
def Hierarchy.cost (h : Hierarchy) : Rat := (1 / 2 : Rat) * h.iMiss + h.dMiss + h.l2Miss + h.writebacks

/-- Issue an instruction-cache access (R223). -/
def State.accessInstruction (s : State) (a : Nat) : State := { s with cache := s.cache.accessInstruction a }

/-- Issue a data-cache access (R155). -/
def State.accessData (s : State) (a : Nat) (isStore : Bool) : State :=
  { s with cache := s.cache.accessData a isStore }

end Sys2Proof.Machine
end

