-- ==== Sys2Proof/Machine/LoadStore.lean ====
section
/-!
DEFINITION. LDR and STR (R150 to R155).
-/

namespace Sys2Proof.Machine

/-- The fault an LDR raises, if any: the destination is checked before the address (R151, R154, R245). -/
def ldrFault (rd rn : Reg) (imm : BitVec 8) (s : State) : Option RuntimeFault :=
  (destFault rd).or (addressFault (s.effectiveAddress rn imm))

/-- The fault a STR raises, if any; `Rd = 15` raises nothing (R152). -/
def strFault (rn : Reg) (imm : BitVec 8) (s : State) : Option RuntimeFault :=
  addressFault (s.effectiveAddress rn imm)

/-- LDR (R151): the base is read before the write, then one data-cache event keyed by `EA`. -/
def execLdr (rd rn : Reg) (imm : BitVec 8) (s : State) : Host.Outcome State Fault Refusal :=
  match ldrFault rd rn imm s with
  | some f => raiseFault f s
  | none =>
    let ea := (s.effectiveAddress rn imm).toNat
    .next ((s.writeReg rd (s.memRead ea)).accessData ea false)

/-- STR (R152): the word of `Rd`, then one data-cache event keyed by `EA`. -/
def execStr (rd rn : Reg) (imm : BitVec 8) (s : State) : Host.Outcome State Fault Refusal :=
  match strFault rn imm s with
  | some f => raiseFault f s
  | none =>
    let ea := (s.effectiveAddress rn imm).toNat
    .next ((s.memWrite ea (s.readReg rd)).accessData ea true)

end Sys2Proof.Machine
end

