-- ==== Sys2Proof/Machine/Dispatch.lean ====
section
/-!
DEFINITION. The meaning of every instruction form: part (5) of spec R220, the execution alone. The fetch, its cache event and
the program counter's advance are the step's (log entry 11).
-/

namespace Sys2Proof.Machine

def exec (i : Instr) (s : State) : Host.Outcome State Fault Refusal :=
  match i with
  | .and rd rn rm => Sys2Proof.Machine.execAnd rd rn rm s
  | .eor rd rn rm => Sys2Proof.Machine.execEor rd rn rm s
  | .sub rd rn rm => Sys2Proof.Machine.execSub rd rn rm s
  | .add rd rn rm => Sys2Proof.Machine.execAdd rd rn rm s
  | .cmp rn rm => Sys2Proof.Machine.execCmp rn rm s
  | .orr rd rn rm => Sys2Proof.Machine.execOrr rd rn rm s
  | .mov rd imm => Sys2Proof.Machine.execMov rd imm s
  | .ldr rd rn imm => Sys2Proof.Machine.execLdr rd rn imm s
  | .str rd rn imm => Sys2Proof.Machine.execStr rd rn imm s
  | .b off => Sys2Proof.Machine.execB off s
  | .bx rm => Sys2Proof.Machine.execBx rm s
  | .cLsl rd rn shamt => Sys2Proof.Machine.execCompactLsl rd rn shamt s
  | .cAdd rd rn rm => Sys2Proof.Machine.execCompactAdd rd rn rm s
  | .cSub rd rn rm => Sys2Proof.Machine.execCompactSub rd rn rm s
  | .cMov rd imm => Sys2Proof.Machine.execCompactMov rd imm s
  | .cBx rm => Sys2Proof.Machine.execCompactBx rm s

end Sys2Proof.Machine
end

