-- ==== Sys2Proof/Decode.lean ====
section
/-!
DEFINITION. The two decode procedures of spec R90 and R97, total on all stored values, rejecting as UNKNOWN by name
(R103, R104); the diagnostic decoder's mnemonics (R121); the canonical encoder and the assembly form of R110;
and the opcode table's rows as masks and patterns (R113).
-/

namespace Sys2Proof

/-- What a decode procedure answers: a recognised instruction with its fields, or the sentinel UNKNOWN, which
carries no fields (R121, R123). -/
inductive Decoded where
  | instr (i : Instr)
  | unknown
  deriving DecidableEq, Repr

/-- The names of R121. -/
inductive Mnemonic where
  | and | eor | sub | add | cmp | orr | mov | ldr | str | b | bx | lsl | unknown
  deriving DecidableEq, Repr

/-! ## Fields -/

/-- The 4-bit register field of `w` whose lowest bit is `lo` (R102). -/
def regField (w : Word) (lo : Nat) : Reg := (w.extractLsb' lo 4).toFin

/-- The 3-bit register field of `w` whose lowest bit is `lo` (R102). -/
def lowRegField (w : Word) (lo : Nat) : LowReg := (w.extractLsb' lo 3).toFin

/-- The class field `w[27:25]` (R83). -/
def classField (w : Word) : BitVec 3 := w.extractLsb' 25 3

/-- The operation field `w[24:21]` (R89). -/
def opField (w : Word) : BitVec 4 := w.extractLsb' 21 4

/-- `imm8 = w[7:0]`, in W-DPI, W-LS and C-MI (R85, R86, R95). -/
def imm8Field (w : Word) : BitVec 8 := w.extractLsb' 0 8

/-! ## Wide decode, R90 -/

/-- Step 2 of R90: class `000`, the operation codes of R89. -/
def decodeDataRegister (w : Word) : Decoded :=
  let rn := regField w 16
  let rd := regField w 12
  let rm := regField w 0
  if opField w = 0b0000#4 then .instr (.and rd rn rm)
  else if opField w = 0b0001#4 then .instr (.eor rd rn rm)
  else if opField w = 0b0010#4 then .instr (.sub rd rn rm)
  else if opField w = 0b0100#4 then .instr (.add rd rn rm)
  else if opField w = 0b1010#4 then .instr (.cmp rn rm)
  else if opField w = 0b1100#4 then .instr (.orr rd rn rm)
  else .unknown

/-- Step 3 of R90: class `001`, where only MOV exists. -/
def decodeDataImmediate (w : Word) : Decoded :=
  if opField w = 0b1101#4 then .instr (.mov (regField w 12) (imm8Field w)) else .unknown

/-- Step 4 of R90: class `010`, bit 20 selects load or store. -/
def decodeLoadStore (w : Word) : Decoded :=
  if w.getLsbD 20 then .instr (.ldr (regField w 12) (regField w 16) (imm8Field w))
  else .instr (.str (regField w 12) (regField w 16) (imm8Field w))

/-- `DecodeWide(w)` (R90): the tests in the spec's order, first match wins. -/
def decodeWide (w : Word) : Decoded :=
  if w &&& 0xFFFFFFF0#32 = 0xE12FFF10#32 then .instr (.bx (regField w 0))
  else if classField w = 0b000#3 then decodeDataRegister w
  else if classField w = 0b001#3 then decodeDataImmediate w
  else if classField w = 0b010#3 then decodeLoadStore w
  else if classField w = 0b101#3 then .instr (.b (w.extractLsb' 0 24))
  else .unknown

/-! ## Compact decode, R97 -/

/-- Step 2 of R97: `h[15:13] = 000`. -/
def decodeShiftAddSub (w : Word) : Decoded :=
  if w.extractLsb' 11 2 = 0b00#2 then
    .instr (.cLsl (lowRegField w 0) (lowRegField w 3) (w.extractLsb' 6 5))
  else if w.extractLsb' 11 2 = 0b11#2 ∧ w.getLsbD 10 = false then
    if w.getLsbD 9 = false then
      .instr (.cAdd (lowRegField w 0) (lowRegField w 3) (lowRegField w 6))
    else .instr (.cSub (lowRegField w 0) (lowRegField w 3) (lowRegField w 6))
  else .unknown

/-- `DecodeCompact(word)` (R97): the tests in the spec's order, first match wins. -/
def decodeCompact (w : Word) : Decoded :=
  if w.extractLsb' 16 16 ≠ 0#16 then .unknown
  else if w &&& 0xFF87#32 = 0x4700#32 then .instr (.cBx (regField w 3))
  else if w.extractLsb' 13 3 = 0b000#3 then decodeShiftAddSub w
  else if w.extractLsb' 11 5 = 0b00100#5 then .instr (.cMov (lowRegField w 8) (imm8Field w))
  else .unknown

/-- `Decode(word, mode)` (R120, R122): the mode alone selects the procedure (R81, R107). -/
def decode (m : Mode) (w : Word) : Decoded :=
  match m with
  | .wide => decodeWide w
  | .compact => decodeCompact w

/-- The recognised instruction, if there is one. -/
def Decoded.toInstr? : Decoded → Option Instr
  | .instr i => some i
  | .unknown => none

/-- The name of an instruction form (R121): the two modes share names. -/
def Instr.mnemonic : Instr → Mnemonic
  | .and _ _ _ => .and
  | .eor _ _ _ => .eor
  | .sub _ _ _ => .sub
  | .add _ _ _ => .add
  | .cmp _ _ => .cmp
  | .orr _ _ _ => .orr
  | .mov _ _ => .mov
  | .ldr _ _ _ => .ldr
  | .str _ _ _ => .str
  | .b _ => .b
  | .bx _ => .bx
  | .cLsl _ _ _ => .lsl
  | .cAdd _ _ _ => .add
  | .cSub _ _ _ => .sub
  | .cMov _ _ => .mov
  | .cBx _ => .bx

/-- The mnemonic of a decoder's answer (R121, R123). -/
def Decoded.mnemonic : Decoded → Mnemonic
  | .instr i => i.mnemonic
  | .unknown => .unknown

/-- The stored value of an opcode-table word. -/
def tableValue (nbits w : Nat) : Word := BitVec.ofNat 32 (w % 2 ^ nbits)

/-- The mode whose decoder reads an opcode-table word. The table's numbering carries no mode, and the masks of compact rows reach
bit 31 (R113): a word of 16 bits or fewer is compact, and so is a longer one, other than 0, that the compact decoder recognises
(log entry 12). -/
def tableMode (nbits w : Nat) : Mode :=
  if nbits ≤ 16 then .compact
  else if tableValue nbits w ≠ 0#32 ∧ (decodeCompact (tableValue nbits w)).toInstr?.isSome then .compact
  else .wide

/-- What the decoder reads from an opcode-table word (the host's name; log entry 12). -/
def decodeTableWord (nbits w : Nat) : Option Instr :=
  (decode (tableMode nbits w) (tableValue nbits w)).toInstr?

/-! ## The canonical encoder, R110 -/

/-- A field of any width placed with its lowest bit at bit `lo` of a stored value. -/
def place {k : Nat} (x : BitVec k) (lo : Nat) : Word := x.setWidth 32 <<< lo

/-- A 4-bit register field (R102). -/
def placeReg (r : Reg) (lo : Nat) : Word := place (BitVec.ofFin r : BitVec 4) lo

/-- A 3-bit register field (R102). -/
def placeLow (r : LowReg) (lo : Nat) : Word := place (BitVec.ofFin r : BitVec 3) lo

/-- `base | Rn<<16 | Rd<<12 | Rm` (R84, R110). -/
def encodeDataRegister (base : Word) (rd rn rm : Reg) : Word :=
  base ||| placeReg rn 16 ||| placeReg rd 12 ||| placeReg rm 0

/-- `base | Rn<<16 | Rd<<12 | imm8` (R86, R110). -/
def encodeLoadStore (base : Word) (rd rn : Reg) (imm : BitVec 8) : Word :=
  base ||| placeReg rn 16 ||| placeReg rd 12 ||| place imm 0

/-- `base | Rm<<6 | Rn<<3 | Rd` (R94, R110). -/
def encodeAddSub (base : Word) (rd rn rm : LowReg) : Word :=
  base ||| placeLow rm 6 ||| placeLow rn 3 ||| placeLow rd 0

/-- The canonical encoding of an instruction (R110), as the 32-bit value an entry stores (R34). -/
def encode : Instr → Word
  | .and rd rn rm => encodeDataRegister 0xE0000000#32 rd rn rm
  | .eor rd rn rm => encodeDataRegister 0xE0200000#32 rd rn rm
  | .sub rd rn rm => encodeDataRegister 0xE0400000#32 rd rn rm
  | .add rd rn rm => encodeDataRegister 0xE0800000#32 rd rn rm
  | .cmp rn rm => encodeDataRegister 0xE1400000#32 0 rn rm
  | .orr rd rn rm => encodeDataRegister 0xE1800000#32 rd rn rm
  | .mov rd imm => 0xE3A00000#32 ||| placeReg rd 12 ||| place imm 0
  | .ldr rd rn imm => encodeLoadStore 0xE5900000#32 rd rn imm
  | .str rd rn imm => encodeLoadStore 0xE5800000#32 rd rn imm
  | .b off => 0xEA000000#32 ||| place off 0
  | .bx rm => 0xE12FFF10#32 ||| placeReg rm 0
  | .cLsl rd rn shamt => 0x0000#32 ||| place shamt 6 ||| placeLow rn 3 ||| placeLow rd 0
  | .cAdd rd rn rm => encodeAddSub 0x1800#32 rd rn rm
  | .cSub rd rn rm => encodeAddSub 0x1A00#32 rd rn rm
  | .cMov rd imm => 0x2000#32 ||| placeLow rd 8 ||| place imm 0
  | .cBx rm => 0x4700#32 ||| placeReg rm 3

/-! ## The opcode table's rows, R113 -/

/-- The row's `mask` over the 32-bit stored value. -/
def Instr.tableMask : Instr → Word
  | .and _ _ _ | .eor _ _ _ | .sub _ _ _ | .add _ _ _ | .cmp _ _ | .orr _ _ _ | .mov _ _ => 0x0FE00000#32
  | .ldr _ _ _ | .str _ _ _ => 0x0E100000#32
  | .b _ => 0x0E000000#32
  | .bx _ => 0xFFFFFFF0#32
  | .cLsl _ _ _ | .cMov _ _ => 0xFFFFF800#32
  | .cAdd _ _ _ | .cSub _ _ _ => 0xFFFFFE00#32
  | .cBx _ => 0xFFFFFF87#32

/-- The row's `match` over the 32-bit stored value. -/
def Instr.tableMatch : Instr → Word
  | .and _ _ _ => 0x00000000#32
  | .eor _ _ _ => 0x00200000#32
  | .sub _ _ _ => 0x00400000#32
  | .add _ _ _ => 0x00800000#32
  | .cmp _ _ => 0x01400000#32
  | .orr _ _ _ => 0x01800000#32
  | .mov _ _ => 0x03A00000#32
  | .ldr _ _ _ => 0x04100000#32
  | .str _ _ _ => 0x04000000#32
  | .b _ => 0x0A000000#32
  | .bx _ => 0xE12FFF10#32
  | .cLsl _ _ _ => 0x00000000#32
  | .cAdd _ _ _ => 0x00001800#32
  | .cSub _ _ _ => 0x00001A00#32
  | .cMov _ _ => 0x00002000#32
  | .cBx _ => 0x00004700#32

/-- The bits R84 to R87 mark `cond` or ignored, with the `Rd` field of CMP (R91, R136); compact formats and BX have none. -/
def Instr.ignoredBits : Instr → Word
  | .and _ _ _ | .eor _ _ _ | .sub _ _ _ | .add _ _ _ | .orr _ _ _ => 0xF0100FF0#32
  | .cmp _ _ => 0xF010FFF0#32
  | .mov _ _ => 0xF01F0F00#32
  | .ldr _ _ _ | .str _ _ _ => 0xF1E00F00#32
  | .b _ => 0xF1000000#32
  | .bx _ => 0#32
  | .cLsl _ _ _ | .cAdd _ _ _ | .cSub _ _ _ | .cMov _ _ | .cBx _ => 0#32

/-- `w` selects the row of `i`: `w & mask == match` (R113). -/
def Instr.matchesRow (i : Instr) (w : Word) : Bool := w &&& i.tableMask == i.tableMatch

/-! ## Assembly text, R110 -/

/-- `R0` to `R15` (R110). -/
def regText (r : Nat) : String := "R" ++ toString r

/-- Three registers separated by commas. -/
def regs3Text (a b c : Nat) : String := regText a ++ "," ++ regText b ++ "," ++ regText c

/-- The assembly line of an instruction (R110), immediates in decimal, compact forms with the `C.` mark, a branch by
its signed word count. -/
def Instr.assembly : Instr → String
  | .and rd rn rm => "AND " ++ regs3Text rd rn rm
  | .eor rd rn rm => "EOR " ++ regs3Text rd rn rm
  | .sub rd rn rm => "SUB " ++ regs3Text rd rn rm
  | .add rd rn rm => "ADD " ++ regs3Text rd rn rm
  | .cmp rn rm => "CMP " ++ regText rn ++ "," ++ regText rm
  | .orr rd rn rm => "ORR " ++ regs3Text rd rn rm
  | .mov rd imm => "MOV " ++ regText rd ++ ",#" ++ toString imm.toNat
  | .ldr rd rn imm => "LDR " ++ regText rd ++ ",[" ++ regText rn ++ ",#" ++ toString imm.toNat ++ "]"
  | .str rd rn imm => "STR " ++ regText rd ++ ",[" ++ regText rn ++ ",#" ++ toString imm.toNat ++ "]"
  | .b off => "B " ++ toString off.toInt
  | .bx rm => "BX " ++ regText rm
  | .cLsl rd rn shamt => "C.LSL " ++ regText rd ++ "," ++ regText rn ++ ",#" ++ toString shamt.toNat
  | .cAdd rd rn rm => "C.ADD " ++ regs3Text rd rn rm
  | .cSub rd rn rm => "C.SUB " ++ regs3Text rd rn rm
  | .cMov rd imm => "C.MOV " ++ regText rd ++ ",#" ++ toString imm.toNat
  | .cBx rm => "C.BX " ++ regText rm

end Sys2Proof
end

