-- ==== Sys2Proof/Machine/Driver.lean ====
section
/-!
DEFINITION. The driver loop's parts (R220 to R228): the instruction store's layout and `Resolve` (R52), the halt
check (R221), fetch (R222), the advance (R226, R227), and the placing of one instruction where the next step fetches it.
Step.lean only puts them in order.
-/

namespace Sys2Proof.Machine

/-- `widthBits / 8` (R52). -/
def Width.bytes : Width → Nat
  | .w16 => 2
  | .w32 => 4

/-- `len(k)` of R52. -/
def Entry.bytes (e : Entry) : Nat := Width.bytes e.width

/-- `TOTAL` (R9): the program's length in bytes. -/
def totalBytes (is : List Entry) : Nat := (is.map Entry.bytes).sum

/-- `start(k)` of R52. -/
def startOffset (is : List Entry) (k : Nat) : Nat := totalBytes (is.take k)

/-- `Resolve(p)` (R52): the index of the entry that covers byte offset `p`. -/
def resolve : List Entry → Nat → Option Nat
  | [], _ => none
  | e :: es, p => if p < e.bytes then some 0 else (resolve es (p - e.bytes)).map (· + 1)

/-- `sint(x[15])` (R23). -/
def State.pcOffset (s : State) : Int := sint s.pc

/-- The halt check (R221): the program counter, as a signed number, is outside `[0, TOTAL)`. -/
def State.pcOutOfRange (s : State) : Bool := decide (s.pcOffset < 0 ∨ s.pcOffset ≥ totalBytes s.store)

/-- `run <- Halted`, and nothing else (R221). -/
def State.halt (s : State) : State := { s with run := .halted }

/-- The entry the program counter denotes (R222). -/
def State.fetchEntry (s : State) : Option Entry := (resolve s.store s.pcOffset.toNat).bind (fun k => s.store[k]?)

/-- `Decode(word, mode)` of the fetched entry; the width tag takes no part (R107, R225). -/
def State.decodeEntry (s : State) (e : Entry) : Decoded := decode s.mode e.word

/-- `AccessInstruction(p)`, keyed by the program counter itself (R223). -/
def State.instructionEvent (s : State) : State := s.accessInstruction s.pcOffset.toNat

/-- `STEP(mode)` in bytes (R9, R226). -/
def stepBytes : Mode → Nat
  | .wide => 4
  | .compact => 2

/-- `advance`: `x[15] <- trunc32(uint(x[15]) + STEP(mode))` (R12, R226). -/
def State.advance (s : State) : State := s.setPc (s.pc + BitVec.ofNat 32 (stepBytes s.mode))

/-- The instructions after which the driver loop does not advance: B and BX, whatever their target (R227). -/
def Instr.setsPc : Instr → Bool
  | .b _ | .bx _ | .cBx _ => true
  | .and _ _ _ | .eor _ _ _ | .sub _ _ _ | .add _ _ _ | .cmp _ _ | .orr _ _ _ => false
  | .mov _ _ | .ldr _ _ _ | .str _ _ _ => false
  | .cLsl _ _ _ | .cAdd _ _ _ | .cSub _ _ _ | .cMov _ _ => false

/-- The same for a decoder's answer: an UNKNOWN word is advanced past (R180). -/
def Decoded.setsPc : Decoded → Bool
  | .instr i => Instr.setsPc i
  | .unknown => false

/-- Part (7) of R220: advance, unless the instruction was B or BX. -/
def State.retire (d : Decoded) (s : State) : State := if Decoded.setsPc d then s else s.advance

/-- `retire` after an execution that answers a next state. -/
def retireOutcome (d : Decoded) : Host.Outcome State Fault Refusal → Host.Outcome State Fault Refusal
  | .next s => .next (s.retire d)
  | .fault r => .fault r
  | .refused r => .refused r

/-- The width tag of the entries a mode is meant for (R276). -/
def tagOf : Mode → Width
  | .wide => .w32
  | .compact => .w16

/-- Load a program of one entry holding an opcode-table word, at the program's start, and set the mode that reads it
(log entry 5). -/
def State.placeWord (s : State) (nbits w : Nat) : State :=
  { s.setPc 0#32 with
    store := [{ word := tableValue nbits w, width := tagOf (tableMode nbits w) }]
    mode := tableMode nbits w
    run := .running }

end Sys2Proof.Machine
end

