-- ==== Sys2Proof/Machine/Unknown.lean ====
section
/-!
DEFINITION. What executing an UNKNOWN word does (R180).
-/

namespace Sys2Proof.Machine

/-- An UNKNOWN word is a no-op: no register, memory or flag mutation, no data-cache event, no fault (R180, R246). The
driver loop advances past it. -/
def execUnknown (s : State) : Host.Outcome State Fault Refusal := .next s

end Sys2Proof.Machine
end

