-- ==== Sys2Proof/Machine/Step.lean ====
section
/-!
DEFINITION. One step of the machine (R220), in the order of R230: halt check, fetch, instruction-cache access, execution,
advance. A total, deterministic function of the state (R6).
-/

namespace Sys2Proof.Machine

/-- Part (5) of R220: act on what the decoder answered (R225). -/
def execDecoded (d : Decoded) (s : State) : Host.Outcome State Fault Refusal :=
  match d with
  | .instr i => exec i s
  | .unknown => execUnknown s

/-- Parts (3) to (7) of R220 for the fetched entry. -/
def executeEntry (s : State) (e : Entry) : Host.Outcome State Fault Refusal :=
  retireOutcome (s.decodeEntry e) (execDecoded (s.decodeEntry e) s.instructionEvent)

/-- One step (R220). A halted machine takes none: the state stays as it is (R228, log entry 6). -/
def step (s : State) : Host.Outcome State Fault Refusal :=
  match s.run with
  | .halted => .next s
  | .running =>
    if s.pcOutOfRange then .next s.halt
    else
      match s.fetchEntry with
      | none => .fault .unresolvedFetch
      | some e => executeEntry s e

/-- The host's name: `s` with the instruction placed where the next step fetches it (log entry 5). -/
def State.withFetchWord (s : State) (nbits w : Nat) : State := s.placeWord nbits w

end Sys2Proof.Machine
end

