-- ==== Sys2Proof/Machine/Trace.lean ====
section
/-!
DEFINITION. The trace record of a step (R237), the diagnostic of a fault (R241, R243) and the modified address a store records
(R153). A side output computed from the state a step starts in: it is no architectural state and nothing reads it (R120, R237;
log entry 9).
-/

namespace Sys2Proof.Machine

/-- The fault an instruction raises in a state, with its `info` (R241), by the very checks its meaning makes. -/
def faultRaised (i : Instr) (s : State) : Option RuntimeFault :=
  match i with
  | .and rd _ _ | .eor rd _ _ | .sub rd _ _ | .add rd _ _ | .orr rd _ _ | .mov rd _ => destFault rd
  | .ldr rd rn imm => ldrFault rd rn imm s
  | .str _ rn imm => strFault rn imm s
  | .cmp _ _ | .b _ | .bx _ => none
  | .cLsl _ _ _ | .cAdd _ _ _ | .cSub _ _ _ | .cMov _ _ | .cBx _ => none

/-- The effective address of a completed STR (R153). -/
def storeAddress (i : Instr) (s : State) : Option Int :=
  match i with
  | .str _ rn imm => if (strFault rn imm s).isNone then some (s.effectiveAddress rn imm) else none
  | .and _ _ _ | .eor _ _ _ | .sub _ _ _ | .add _ _ _ | .orr _ _ _ | .mov _ _ | .cmp _ _ => none
  | .ldr _ _ _ | .b _ | .bx _ => none
  | .cLsl _ _ _ | .cAdd _ _ _ | .cSub _ _ _ | .cMov _ _ | .cBx _ => none

/-- One trace record (R237). `decoded` is `Decode(word, mode)`: the mnemonic with its fields (R121). -/
structure TraceRecord where
  pcFetch : Int
  mode : Mode
  decoded : Decoded
  regs : Vector Word 16
  z : Bool
  n : Bool
  c : Bool
  v : Bool
  storeAddr : Option Int
  fault : Option RuntimeFault
  deriving DecidableEq, Repr

/-- The record of a fetched entry: registers and flags as they stand after part (5) of R220 and before part (7). -/
def traceOf (s : State) (e : Entry) (t : State) : TraceRecord where
  pcFetch := s.pcOffset
  mode := s.mode
  decoded := s.decodeEntry e
  regs := t.regs
  z := t.z
  n := t.n
  c := t.c
  v := t.v
  storeAddr := (s.decodeEntry e).toInstr?.bind (fun i => storeAddress i s)
  fault := (s.decodeEntry e).toInstr?.bind (fun i => faultRaised i s)

/-- The record the step from `s` emits; a step that halts, or a halted machine, emits none (R221, R237). -/
def State.traceRecord (s : State) : Option TraceRecord :=
  if s.run = .halted ∨ s.pcOutOfRange then none
  else
    match s.fetchEntry with
    | none => none
    | some e =>
      match execDecoded (s.decodeEntry e) s.instructionEvent with
      | .next t => some (traceOf s e t)
      | .fault _ => none
      | .refused _ => none

end Sys2Proof.Machine
end

