-- ==== Sys2Proof/Machine/HostOps.lean ====
section
/-!
DEFINITION. What the host may do before and after a run (R232 to R238, R273): configure, load, preload, run and read out, each
refusing by name what the spec refuses. A session is one simulator instance together with the trace it has emitted.
-/

namespace Sys2Proof.Machine

/-- Why a host call is refused; the instance is then as it was. -/
inductive HostRefusal where
  /-- `configure` with a parameter set that breaks R8 (R250). -/
  | illegalGeometry
  /-- `load` with lists of different lengths (R233). -/
  | lengthMismatch
  /-- `load` with a width other than 16 or 32 (R233). -/
  | badWidth
  /-- `load` with a word that does not fit its width (R233). -/
  | oversizedWord
  /-- `load` with `TOTAL >= 2^31` (R233). -/
  | programTooLong
  /-- `load` or a preload after the first step (R233, R234). -/
  | runStarted
  /-- `configure` of an instance whose run has begun and not halted: the host cannot cancel a run (R5, R235). -/
  | runInProgress
  /-- A preload of `x[15]` or of a word index `M` does not have (R39, R234). -/
  | notPreloadable
  deriving DecidableEq, Repr

/-- One instance as the host sees it; `started` records that the first step of the run has been taken (R233, R234;
log entry 15). -/
structure Session where
  machine : State
  started : Bool
  trace : List TraceRecord
  deriving DecidableEq, Repr

/-- An instance right after its construction under `g`, with the store `is`. -/
def Session.fresh (g : Geometry) (is : List Entry) : Session :=
  { machine := State.resetWith g is, started := false, trace := [] }

/-- `configure` (R232): a new instance with nothing from an earlier one (R238, R272). -/
def configure (g : Geometry) : Except HostRefusal Session :=
  if g.legal then .ok (Session.fresh g []) else .error .illegalGeometry

/-- A run is in progress: its first step has been taken and the machine has not halted. The host touches nothing then (R5, R235). -/
def Session.inRun (h : Session) : Bool := h.started && decide (h.machine.run = .running)

/-- `configure` called on an instance that exists, before a run or after one, its reset: the instruction store stays, all else takes
its reset value (R34, R38, R270; log entry 14). During a run the host cannot call it (R5, R235; log entry 24). -/
def Session.reconfigure (h : Session) (g : Geometry) : Except HostRefusal Session :=
  if h.inRun then .error .runInProgress
  else if g.legal then .ok (Session.fresh g h.machine.store) else .error .illegalGeometry

/-- A width the store can tag an entry with (R233). -/
def widthOf? (bits : Nat) : Option Width := if bits = 16 then some .w16 else if bits = 32 then some .w32 else none

/-- One entry of a `load` call (R233). -/
def makeEntry (word bits : Nat) : Except HostRefusal Entry :=
  match widthOf? bits with
  | none => .error .badWidth
  | some w => if word < 2 ^ bits then .ok { word := BitVec.ofNat 32 word, width := w } else .error .oversizedWord

/-- `IS[k] = (words[k], widths[k])`, in order (R233). -/
def makeEntries : List Nat → List Nat → Except HostRefusal (List Entry)
  | [], [] => .ok []
  | [], _ :: _ => .error .lengthMismatch
  | _ :: _, [] => .error .lengthMismatch
  | w :: ws, b :: bs =>
    match makeEntry w b, makeEntries ws bs with
    | .ok e, .ok es => .ok (e :: es)
    | .error r, _ => .error r
    | .ok _, .error r => .error r

/-- `load(words, widths)` (R233): it replaces the store. -/
def Session.load (h : Session) (words widths : List Nat) : Except HostRefusal Session :=
  if h.started then .error .runStarted
  else
    match makeEntries words widths with
    | .error r => .error r
    | .ok es =>
      if totalBytes es < 2 ^ 31 then .ok { h with machine := { h.machine with store := es } } else .error .programTooLong

/-- Preload a register (R39, R234). -/
def Session.preloadReg (h : Session) (r : Reg) (v : Word) : Except HostRefusal Session :=
  if h.started then .error .runStarted
  else if r = 15 then .error .notPreloadable
  else .ok { h with machine := h.machine.writeReg r v }

/-- Preload a word of main memory (R39, R234). -/
def Session.preloadWord (h : Session) (k : Nat) (v : Word) : Except HostRefusal Session :=
  if h.started then .error .runStarted
  else if k < memWords then .ok { h with machine := { h.machine with mem := h.machine.mem.setWord k v } }
  else .error .notPreloadable

/-- One `Step` of a run, its record appended to the trace (R235, R237); no call of the host's, which cannot single-step. A stop, which
R220 rules out, leaves the instance as it is. -/
def Session.advance (h : Session) : Session :=
  match step h.machine with
  | .next t => { machine := t, started := true, trace := h.trace ++ h.machine.traceRecord.toList }
  | .fault _ => h
  | .refused _ => h

/-- `run()` (R229, R235) under a step budget that is no part of the hardware: `none` says that the budget ran out before the
machine halted, never that a run ended (D31). -/
def Session.run : Nat → Session → Option Session
  | 0, h => if h.machine.run = .halted then some h else none
  | k + 1, h => if h.machine.run = .halted then some h else Session.run k h.advance

/-- What the host may read after a run (R236); the cache lines are not readable. -/
structure ReadOut where
  regs : Vector Word 16
  z : Bool
  n : Bool
  c : Bool
  v : Bool
  mode : Mode
  run : RunState
  flt : BitVec 2
  /-- `M[0] .. M[1023]`. -/
  mem : List Word
  iMiss : Nat
  dMiss : Nat
  l2Miss : Nat
  writebacks : Nat
  cost : Rat
  deriving DecidableEq, Repr

/-- Read-out (R236): after a run, so only of a halted machine; it changes nothing. -/
def Session.readOut (h : Session) : Option ReadOut :=
  if h.machine.run = .halted then
    some
      { regs := h.machine.regs
        z := h.machine.z
        n := h.machine.n
        c := h.machine.c
        v := h.machine.v
        mode := h.machine.mode
        run := h.machine.run
        flt := h.machine.flt
        mem := (List.range memWords).map h.machine.mem.word
        iMiss := h.machine.cache.iMiss
        dMiss := h.machine.cache.dMiss
        l2Miss := h.machine.cache.l2Miss
        writebacks := h.machine.cache.writebacks
        cost := h.machine.cache.cost }
  else none

end Sys2Proof.Machine
end

