-- ==== Sys2Proof/Safety.lean ====
section
/-!
DEFINITION. What a well-formed state is, the invariant of a configured machine, and the words claims are stated in: which part
of a state the processor owns (R206), the registers an instruction writes, the byte addresses a store writes.
-/

namespace Sys2Proof.Machine

/-- An entry is what `load` accepts: a 16-bit entry's stored value has no bit above bit 15 (R34, R233). -/
def Entry.wf (e : Entry) : Bool :=
  match e.width with
  | .w16 => decide (e.word.toNat < 2 ^ 16)
  | .w32 => true

/-- A program is what `load` accepts (R233). -/
abbrev programWf (is : List Entry) : Prop := (∀ e ∈ is, e.wf = true) ∧ totalBytes is < 2 ^ 31

/-- The hierarchy's invariant: a legal geometry with arrays of its slot counts (R192), no dirty line in `L1I` or `L2` (R197, R201),
a dirty `L1D` line is valid (R199), and the counter bounds that follow from who counts what (R199, R205). -/
abbrev Hierarchy.wf (h : Hierarchy) : Prop :=
  h.geometry.legal = true
    ∧ h.l1i.length = h.geometry.l1iSlots ∧ h.l1d.length = h.geometry.l1dSlots ∧ h.l2.length = h.geometry.l2Slots
    ∧ (∀ l ∈ h.l1i, l.dirty = false) ∧ (∀ l ∈ h.l2, l.dirty = false)
    ∧ (∀ l ∈ h.l1d, l.dirty = true → l.valid = true)
    ∧ h.l2Miss ≤ h.iMiss + h.dMiss ∧ h.writebacks ≤ h.dMiss

/-- The machine's invariant: memory in its canonical form, a program `load` accepts, C and V at 0 (R27), a well-formed
hierarchy, and a halted machine's program counter out of range (R31, R221). -/
abbrev State.wf (s : State) : Prop :=
  s.mem.wf ∧ programWf s.store ∧ s.c = false ∧ s.v = false ∧ s.cache.wf
    ∧ (s.run = .halted → s.pcOutOfRange = true)

/-- Two states that differ in the cache hierarchy at most (R206). -/
abbrev State.sameButCache (s t : State) : Prop :=
  s.regs = t.regs ∧ s.z = t.z ∧ s.n = t.n ∧ s.c = t.c ∧ s.v = t.v ∧ s.mode = t.mode ∧ s.flt = t.flt
    ∧ s.run = t.run ∧ s.mem = t.mem ∧ s.store = t.store

/-- The register an instruction's execution may write: its destination, or 15 for B and BX (R22, R122). -/
def writtenReg : Instr → Option Reg
  | .and rd _ _ | .eor rd _ _ | .sub rd _ _ | .add rd _ _ | .orr rd _ _ | .mov rd _ | .ldr rd _ _ => some rd
  | .cmp _ _ | .str _ _ _ => none
  | .b _ | .bx _ | .cBx _ => some 15
  | .cLsl rd _ _ | .cAdd rd _ _ | .cSub rd _ _ | .cMov rd _ => some (lowReg rd)

/-- The instructions that may write Z and N (R28). -/
def writesFlags : Instr → Bool
  | .and _ _ _ | .eor _ _ _ | .sub _ _ _ | .add _ _ _ | .cmp _ _ | .orr _ _ _ | .mov _ _ => true
  | .cLsl _ _ _ | .cAdd _ _ _ | .cSub _ _ _ | .cMov _ _ => true
  | .ldr _ _ _ | .str _ _ _ | .b _ | .bx _ | .cBx _ => false

/-- The two forms of branch-exchange (R163). -/
def isBranchExchange : Instr → Bool
  | .bx _ | .cBx _ => true
  | .and _ _ _ | .eor _ _ _ | .sub _ _ _ | .add _ _ _ | .cmp _ _ | .orr _ _ _ | .mov _ _ => false
  | .ldr _ _ _ | .str _ _ _ | .b _ => false
  | .cLsl _ _ _ | .cAdd _ _ _ | .cSub _ _ _ | .cMov _ _ => false

/-- The instructions that set the program counter themselves (R22, R227). -/
def isBranch (i : Instr) : Bool :=
  match i with
  | .b _ => true
  | .and _ _ _ | .eor _ _ _ | .sub _ _ _ | .add _ _ _ | .cmp _ _ | .orr _ _ _ | .mov _ _ => false
  | .ldr _ _ _ | .str _ _ _ => false
  | .bx _ | .cBx _ => true
  | .cLsl _ _ _ | .cAdd _ _ _ | .cSub _ _ _ | .cMov _ _ => false

/-- The data-processing forms of both modes: they touch registers and flags alone (R130, R136, R137, R170). -/
def isDataForm (i : Instr) : Bool := writesFlags i

/-- R130's last two lines field by field: `x[Rd] <- r`, `Z` iff `uint(r) = 0`, `N` iff `sint(r) < 0` (R26). -/
def State.withResult (s : State) (rd : Reg) (r : Word) : State :=
  { s with regs := s.regs.set rd r, z := decide (uint r = 0), n := decide (sint r < 0) }

/-- A state whose latch has the bits of `b` set and nothing else changed (R243). -/
def State.withLatch (s : State) (b : BitVec 2) : State := { s with flt := s.flt ||| b }

/-- The fetch of R221 and R222: the machine runs, the program counter is in `[0, TOTAL)` and `e` is the entry that covers it. -/
abbrev State.fetches (s : State) (e : Entry) : Prop :=
  s.run = .running ∧ 0 ≤ sint (s.readReg 15) ∧ sint (s.readReg 15) < totalBytes s.store
    ∧ ∃ k, resolve s.store (sint (s.readReg 15)).toNat = some k ∧ s.store[k]? = some e

/-- Part (7) of R220 for an instruction that is no branch (R226): after the fetch of `i`, its cache access and its execution, the
step adds `k` to the program counter, and is then over. -/
abbrev advancesBy (i : Instr) (k : Word) : Prop :=
  ∀ (s t : State) (e : Entry), s.fetches e → decode s.mode e.word = .instr i →
    exec i { s with cache := s.cache.accessInstruction (sint (s.readReg 15)).toNat } = .next t →
    step s = .next { t with regs := t.regs.set 15 (t.readReg 15 + k) }

/-- The same for an instruction after which the driver loop does not advance (R227). -/
abbrev setsItsOwnPc (i : Instr) : Prop :=
  ∀ (s t : State) (e : Entry), s.fetches e → decode s.mode e.word = .instr i →
    exec i { s with cache := s.cache.accessInstruction (sint (s.readReg 15)).toNat } = .next t → step s = .next t

/-- A run that has recorded no fault so far (R30, U3): the premise a claim that should hold under either answer to
"continue or halt" takes. -/
abbrev State.noFault (s : State) : Prop := s.flt = 0#2

end Sys2Proof.Machine
end

