-- ==== Sys2Proof/Certificates/Slice0/Obligations.lean ====
section
/-!
DEFINITION. What the provers are asked to prove of the model. Each statement's docstring names the rules of spec/ it comes from.
-/

open Sys2Proof Sys2Proof.Machine

/-! ## Reset and the invariant -/

/-- R38 (its rows of ground `decision` are the spec's D18): every row of the reset table, under any geometry and with any
instruction store, which reset does not clear. -/
def Obligations.ResetLeavesTheTabledValues : Prop :=
  (∀ (g : Geometry) (is : List Entry), let s := State.resetWith g is
    s.readReg 15 = 0#32 ∧ s.mode = .wide ∧ s.run = .running
      ∧ (∀ r : Reg, r ≠ 15 → s.readReg r = 0#32)
      ∧ s.z = false ∧ s.n = false ∧ s.c = false ∧ s.v = false ∧ s.flt = 0#2
      ∧ (∀ k, k < 1024 → s.mem.word k = 0#32)
      ∧ s.cache.l1i.length = g.l1iCapacity / g.blockSize
      ∧ s.cache.l1d.length = g.l1dCapacity / g.blockSize
      ∧ s.cache.l2.length = g.l2Capacity / g.l2BlockSize
      ∧ (∀ l ∈ s.cache.l1i ++ s.cache.l1d ++ s.cache.l2, l.valid = false ∧ l.tag = 0 ∧ l.dirty = false)
      ∧ s.cache.iMiss = 0 ∧ s.cache.dMiss = 0 ∧ s.cache.l2Miss = 0 ∧ s.cache.writebacks = 0
      ∧ s.store = is)
  ∧ ∃ g, State.reset = State.resetWith g []

/-- The invariant holds at reset, for every legal geometry and every program `load` accepts (R8, R38, R233). -/
def Obligations.ResetMeetsTheInvariant : Prop :=
  (∀ (g : Geometry) (is : List Entry), g.legal = true → programWf is → (State.resetWith g is).wf) ∧ State.reset.wf

/-- Every step keeps the invariant: canonical memory (R33), an accepted program (R233), C and V at 0 (R27), clean `L1I` and `L2`
lines (R197, R201), valid dirty `L1D` lines (R199), `l2Miss <= iMiss + dMiss` (R205), and a halted program counter out of range
(R31). -/
def Obligations.StepKeepsTheInvariant : Prop := ∀ s t : State, s.wf → step s = .next t → t.wf

/-- What the host may do before a run, and a configure after one, gives machines that meet the invariant (R232, R233, R234); a
configure of an instance whose run is in progress is refused (R5, R235, in the form of log entry 24), and otherwise resets all but
the instruction store (log entry 14). -/
def Obligations.HostCallsGiveMachinesInTheInvariant : Prop :=
  (∀ (g : Geometry) (h : Session), configure g = .ok h → h.machine.wf ∧ h.machine.run = .running ∧ h.started = false)
  ∧ (∀ (h : Session) (g : Geometry), h.started = true → h.machine.run = .running → h.reconfigure g = .error .runInProgress)
  ∧ (∀ (h h' : Session) (g : Geometry), h.machine.wf → h.reconfigure g = .ok h' →
      h'.machine.wf ∧ h'.machine.run = .running ∧ h'.started = false ∧ h'.machine.store = h.machine.store)
  ∧ (∀ (h : Session) (g : Geometry), (h.started = false ∨ h.machine.run = .halted) → g.legal = true →
      h.reconfigure g = .ok (Session.fresh g h.machine.store))
  ∧ (∀ (h h' : Session) (ws bs : List Nat), h.machine.wf → h.machine.run = .running → h.load ws bs = .ok h' → h'.machine.wf)
  ∧ (∀ (h h' : Session) (r : Reg) (v : Word), h.machine.wf → h.machine.run = .running → h.preloadReg r v = .ok h' →
      h'.machine.wf)
  ∧ (∀ (h h' : Session) (k : Nat) (v : Word), h.machine.wf → h.machine.run = .running → h.preloadWord k v = .ok h' →
      h'.machine.wf)

/-! ## The step -/

/-- R6, R220: the step is total; no state makes it stop with a fault or a refusal. -/
def Obligations.StepAlwaysAnswersNext : Prop := ∀ s : State, ∃ t, step s = .next t

/-- R222, R223, R226, R227: the step at an in-range program counter is `exec` of the decoded instruction after the
instruction-cache access, then the advance by `STEP(mode)` unless the instruction was B or BX (the spec's D12 for B); for an
UNKNOWN word it is the access and the advance. -/
def Obligations.StepRunsTheDecodedInstruction : Prop :=
  ∀ (s : State) (e : Entry), s.fetches e →
    let h := { s with cache := s.cache.accessInstruction (sint (s.readReg 15)).toNat }
    (∀ i, decode s.mode e.word = .instr i → step s =
      match exec i h with
      | .next t =>
        .next (if isBranch i then t
          else { t with regs := t.regs.set 15 (t.readReg 15 + (if s.mode = .wide then 4#32 else 2#32)) })
      | .fault r => .fault r
      | .refused r => .refused r)
    ∧ (decode s.mode e.word = .unknown →
      step s = .next { h with regs := s.regs.set 15 (s.readReg 15 + (if s.mode = .wide then 4#32 else 2#32)) })

/-- R180, R246: an UNKNOWN word changes nothing but the fetch's cache state and the program counter, and its record says
UNKNOWN. -/
def Obligations.UnknownWordIsANoOp : Prop :=
  ∀ (s : State) (e : Entry), s.fetches e → decode s.mode e.word = .unknown →
    step s = .next
      { s with
        cache := s.cache.accessInstruction (sint (s.readReg 15)).toNat
        regs := s.regs.set 15 (s.readReg 15 + (if s.mode = .wide then 4#32 else 2#32)) }
    ∧ ∃ r, s.traceRecord = some r ∧ r.decoded.mnemonic = .unknown ∧ r.fault = none ∧ r.storeAddr = none

/-- R221 (the spec's D26): a running machine whose program counter is outside `[0, TOTAL)` halts and does nothing else, without
a record. -/
def Obligations.HaltCheckStopsOutsideTheProgram : Prop :=
  ∀ s : State, s.run = .running → (sint (s.readReg 15) < 0 ∨ sint (s.readReg 15) ≥ totalBytes s.store) →
    step s = .next { s with run := .halted } ∧ s.traceRecord = none

/-- R31: the run state changes only there: a running machine is halted after a step exactly when its program counter was out of
range. -/
def Obligations.RunEndsOnlyAtTheHaltCheck : Prop :=
  ∀ s t : State, s.run = .running → step s = .next t →
    (t.run = .halted ↔ (sint (s.readReg 15) < 0 ∨ sint (s.readReg 15) ≥ totalBytes s.store))

/-- R228: a halted machine stays as it is. That `step` answers the same state, where the spec has no step at all, is the model's
choice (log entry 6). -/
def Obligations.HaltedMachineStaysAsItIs : Prop :=
  ∀ s : State, s.run = .halted → step s = .next s ∧ s.traceRecord = none

/-- R52: inside the program `Resolve` gives the one entry whose bytes cover the offset, and it is undefined outside. -/
def Obligations.ResolveFindsTheOneCoveringEntry : Prop :=
  (∀ (is : List Entry) (p : Nat), p < totalBytes is →
    ∃ k e, resolve is p = some k ∧ is[k]? = some e ∧ startOffset is k ≤ p ∧ p < startOffset is k + e.bytes
      ∧ ∀ k' e', is[k']? = some e' → startOffset is k' ≤ p → p < startOffset is k' + e'.bytes → k' = k)
  ∧ ∀ (is : List Entry) (p : Nat), totalBytes is ≤ p → resolve is p = none

/-- In a store of 32-bit entries `Resolve(p) = p div 4`, which the spec derives (R53). -/
def Obligations.WideStoreResolvesByDivision : Prop :=
  ∀ (is : List Entry) (p : Nat), (∀ e ∈ is, e.width = .w32) → p < totalBytes is → resolve is p = some (p / 4)

/-- One instance of R24 (the spec's D22): `ORR Rd,R15,R15` copies the instruction's own address, with no offset. The other readers
of register 15 have their own result statements. -/
def Obligations.OrrOfRegisterFifteenCopiesOwnAddress : Prop :=
  ∀ (s : State) (e : Entry) (rd : Reg), s.fetches e → rd ≠ 15 → decode s.mode e.word = .instr (.orr rd 15 15) →
    ∃ t, step s = .next t ∧ t.readReg rd = s.readReg 15

/-! ## Encoding -/

/-- R90, R97, R110: the decoder of an instruction's mode reads its canonical word back, with every operand. -/
def Obligations.DecodingUndoesEncoding : Prop := ∀ i : Instr, decode i.mode (encode i) = .instr i

/-- R90, R97, R103, R104, R113: a decoded instruction is of the decoder's mode and its word selects its row of the opcode table;
a word that selects a row of the mode decodes to an instruction of that row; a word is UNKNOWN exactly when it selects no row.
-/
def Obligations.DecoderFollowsTheOpcodeTable : Prop :=
  (∀ (m : Mode) (w : Word) (i : Instr), decode m w = .instr i → i.mode = m ∧ w &&& i.tableMask = i.tableMatch)
  ∧ (∀ (m : Mode) (w : Word) (i : Instr), i.mode = m → w &&& i.tableMask = i.tableMatch →
      ∃ j, decode m w = .instr j ∧ j.tableMask = i.tableMask ∧ j.tableMatch = i.tableMatch ∧ j.mnemonic = i.mnemonic)
  ∧ ∀ (m : Mode) (w : Word), decode m w = .unknown ↔ ∀ i : Instr, i.mode = m → w &&& i.tableMask ≠ i.tableMatch

/-- R91 (the spec's D6): bits marked `cond` or ignored affect neither which instruction a wide word is nor its operands. -/
def Obligations.IgnoredBitsChangeNothing : Prop :=
  ∀ (w x : Word) (i : Instr), decode .wide w = .instr i → decode .wide (w ^^^ (x &&& i.ignoredBits)) = .instr i

/-- R92, R107 (the spec's D10): the width tag takes no part: in Wide mode a 16-bit value is `AND Rd,R0,Rm`; in Compact mode a
value with a bit above bit 15 is UNKNOWN. -/
def Obligations.ModeAloneSelectsTheDecoder : Prop :=
  (∀ w : Word, uint w < 2 ^ 16 → decode .wide w = .instr (.and (regField w 12) 0 (regField w 0)))
  ∧ ∀ w : Word, 2 ^ 16 ≤ uint w → decode .compact w = .unknown

/-- R84 to R90, R93 to R97: words of each family written out from the format tables (vectors of spec/95_test_vectors.md). -/
def Obligations.HandAssembledWordsDecode : Prop :=
  decode .wide 0xE0013002#32 = .instr (.and 3 1 2) ∧ decode .wide 0xE140F001#32 = .instr (.cmp 0 1)
    ∧ decode .wide 0x03A0F0FF#32 = .instr (.mov 15 255) ∧ decode .wide 0xE5902001#32 = .instr (.ldr 2 0 1)
    ∧ decode .wide 0xE5801001#32 = .instr (.str 1 0 1) ∧ decode .wide 0xEAFFFFFE#32 = .instr (.b 0xFFFFFE#24)
    ∧ decode .wide 0xE12FFF10#32 = .instr (.bx 0) ∧ decode .wide 0xE1A00000#32 = .unknown
    ∧ decode .compact 0x011C#32 = .instr (.cLsl 4 3 4) ∧ decode .compact 0x1AAE#32 = .instr (.cSub 6 5 2)
    ∧ decode .compact 0x2305#32 = .instr (.cMov 3 5) ∧ decode .compact 0x4778#32 = .instr (.cBx 15)
    ∧ decode .compact 0x4701#32 = .unknown

/-! ## What each instruction does: its whole next state -/

/-- R131 with R130: AND, its flags, and the fault of a destination of 15 (the spec's D15). The step of a fetched AND is its
execution after the fetch's cache access, then an advance by 4. -/
def Obligations.AndWritesTheConjunction : Prop :=
  ∀ (rd rn rm : Reg),
    (∀ s : State,
      (rd ≠ 15 → exec (.and rd rn rm) s = .next (s.withResult rd (s.readReg rn &&& s.readReg rm)))
      ∧ (rd = 15 → exec (.and rd rn rm) s = .next (s.withLatch 0b10#2)))
    ∧ advancesBy (.and rd rn rm) 4#32

/-- R132 with R130: EOR; the rest as for AND. -/
def Obligations.EorWritesTheExclusiveOr : Prop :=
  ∀ (rd rn rm : Reg),
    (∀ s : State,
      (rd ≠ 15 → exec (.eor rd rn rm) s = .next (s.withResult rd (s.readReg rn ^^^ s.readReg rm)))
      ∧ (rd = 15 → exec (.eor rd rn rm) s = .next (s.withLatch 0b10#2)))
    ∧ advancesBy (.eor rd rn rm) 4#32

/-- R133 with R130: SUB wraps modulo `2^32` (the spec's D14); the rest as for AND. -/
def Obligations.SubWritesTheWrappedDifference : Prop :=
  ∀ (rd rn rm : Reg),
    (∀ s : State,
      (rd ≠ 15 →
        exec (.sub rd rn rm) s = .next (s.withResult rd (trunc32 ((uint (s.readReg rn) : Int) - uint (s.readReg rm)))))
      ∧ (rd = 15 → exec (.sub rd rn rm) s = .next (s.withLatch 0b10#2)))
    ∧ advancesBy (.sub rd rn rm) 4#32

/-- R134 with R130: ADD wraps modulo `2^32` (the spec's D14); the rest as for AND. -/
def Obligations.AddWritesTheWrappedSum : Prop :=
  ∀ (rd rn rm : Reg),
    (∀ s : State,
      (rd ≠ 15 →
        exec (.add rd rn rm) s = .next (s.withResult rd (trunc32 ((uint (s.readReg rn) : Int) + uint (s.readReg rm)))))
      ∧ (rd = 15 → exec (.add rd rn rm) s = .next (s.withLatch 0b10#2)))
    ∧ advancesBy (.add rd rn rm) 4#32

/-- R135 with R130: ORR; the rest as for AND. -/
def Obligations.OrrWritesTheDisjunction : Prop :=
  ∀ (rd rn rm : Reg),
    (∀ s : State,
      (rd ≠ 15 → exec (.orr rd rn rm) s = .next (s.withResult rd (s.readReg rn ||| s.readReg rm)))
      ∧ (rd = 15 → exec (.orr rd rn rm) s = .next (s.withLatch 0b10#2)))
    ∧ advancesBy (.orr rd rn rm) 4#32

/-- R136: CMP writes Z and N from the wrapped difference and nothing else; Z says that the two values are equal. The step
advances by 4. -/
def Obligations.CmpSetsFlagsFromTheDifference : Prop :=
  ∀ (rn rm : Reg),
    (∀ s : State,
      exec (.cmp rn rm) s = .next
        { s with
          z := decide (s.readReg rn = s.readReg rm)
          n := decide (sint (trunc32 ((uint (s.readReg rn) : Int) - uint (s.readReg rm))) < 0) })
    ∧ advancesBy (.cmp rn rm) 4#32

/-- R137: wide MOV of an 8-bit immediate (the spec's D33); N is always 0 and Z says that the immediate is 0. The step advances
by 4. -/
def Obligations.MovWritesTheZeroExtendedImmediate : Prop :=
  ∀ (rd : Reg) (imm : BitVec 8),
    (∀ s : State,
      (rd ≠ 15 → exec (.mov rd imm) s = .next
        { s with regs := s.regs.set rd (BitVec.ofNat 32 imm.toNat), z := decide (imm = 0#8), n := false })
      ∧ (rd = 15 → exec (.mov rd imm) s = .next (s.withLatch 0b10#2)))
    ∧ advancesBy (.mov rd imm) 4#32

/-- R151: LDR reads the word that contains `EA = sint(x[Rn]) + 4*imm8` and issues one data-cache access keyed by `EA` (the
spec's D13); the destination is checked before the address (its D17). The step advances by 4. -/
def Obligations.LdrLoadsTheWordAtItsEffectiveAddress : Prop :=
  ∀ (rd rn : Reg) (imm : BitVec 8),
    (∀ s : State, let ea := sint (s.readReg rn) + 4 * (imm.toNat : Int)
      (rd ≠ 15 → 0 ≤ ea → ea < 4096 → exec (.ldr rd rn imm) s = .next
        { s with regs := s.regs.set rd (s.mem.word (ea.toNat / 4)), cache := s.cache.accessData ea.toNat false })
      ∧ (rd ≠ 15 → ea < 0 ∨ 4096 ≤ ea → exec (.ldr rd rn imm) s = .next (s.withLatch 0b01#2))
      ∧ (rd = 15 → exec (.ldr rd rn imm) s = .next (s.withLatch 0b10#2)))
    ∧ advancesBy (.ldr rd rn imm) 4#32

/-- R152: STR replaces the word that contains `EA`, issues one data-cache access keyed by `EA` and records `EA` in the trace;
`Rd = 15` stores the instruction's own address. The step advances by 4. -/
def Obligations.StrStoresTheWordAtItsEffectiveAddress : Prop :=
  ∀ (rd rn : Reg) (imm : BitVec 8),
    (∀ s : State, let ea := sint (s.readReg rn) + 4 * (imm.toNat : Int)
      (0 ≤ ea → ea < 4096 →
        exec (.str rd rn imm) s = .next
          { s with mem := s.mem.setWord (ea.toNat / 4) (s.readReg rd), cache := s.cache.accessData ea.toNat true }
        ∧ storeAddress (.str rd rn imm) s = some ea)
      ∧ (ea < 0 ∨ 4096 ≤ ea →
        exec (.str rd rn imm) s = .next (s.withLatch 0b01#2) ∧ storeAddress (.str rd rn imm) s = none))
    ∧ advancesBy (.str rd rn imm) 4#32

/-- R160: B goes to its own address plus 8 plus four times its signed word count, modulo `2^32`, and the step advances no
further (the spec's D12). -/
def Obligations.BranchGoesToItsTarget : Prop :=
  ∀ (off : BitVec 24),
    (∀ s : State,
      exec (.b off) s = .next
        { s with regs := s.regs.set 15 (trunc32 ((uint (s.readReg 15) : Int) + 4 * off.toInt + 8)) })
    ∧ setsItsOwnPc (.b off)

/-- R161: wide BX clears bit 0 of the target and takes the mode from it; the step advances no further. -/
def Obligations.WideBxJumpsAndSwitchesMode : Prop :=
  ∀ (rm : Reg),
    (∀ s : State,
      exec (.bx rm) s = .next
        { s with
          regs := s.regs.set 15 (s.readReg rm &&& 0xFFFFFFFE#32)
          mode := if uint (s.readReg rm) % 2 = 1 then .compact else .wide })
    ∧ setsItsOwnPc (.bx rm)

/-- R162: compact BX does the same, word for word. -/
def Obligations.CompactBxJumpsAndSwitchesMode : Prop :=
  ∀ (rm : Reg),
    (∀ s : State,
      exec (.cBx rm) s = .next
        { s with
          regs := s.regs.set 15 (s.readReg rm &&& 0xFFFFFFFE#32)
          mode := if uint (s.readReg rm) % 2 = 1 then .compact else .wide })
    ∧ setsItsOwnPc (.cBx rm)

/-- R171 with R170: LSL drops the bits shifted out at the top. The step advances by 2. -/
def Obligations.LslWritesTheShiftedValue : Prop :=
  ∀ (rd rn : LowReg) (shamt : BitVec 5),
    (∀ s : State,
      exec (.cLsl rd rn shamt) s =
        .next (s.withResult (lowReg rd) (trunc32 ((uint (s.readReg (lowReg rn)) : Int) * 2 ^ shamt.toNat))))
    ∧ advancesBy (.cLsl rd rn shamt) 2#32

/-- R172 with R170: compact ADD. The step advances by 2. -/
def Obligations.CompactAddWritesTheWrappedSum : Prop :=
  ∀ (rd rn rm : LowReg),
    (∀ s : State,
      exec (.cAdd rd rn rm) s = .next (s.withResult (lowReg rd)
        (trunc32 ((uint (s.readReg (lowReg rn)) : Int) + uint (s.readReg (lowReg rm))))))
    ∧ advancesBy (.cAdd rd rn rm) 2#32

/-- R173 with R170: compact SUB. The step advances by 2. -/
def Obligations.CompactSubWritesTheWrappedDifference : Prop :=
  ∀ (rd rn rm : LowReg),
    (∀ s : State,
      exec (.cSub rd rn rm) s = .next (s.withResult (lowReg rd)
        (trunc32 ((uint (s.readReg (lowReg rn)) : Int) - uint (s.readReg (lowReg rm))))))
    ∧ advancesBy (.cSub rd rn rm) 2#32

/-- R174 with R170: compact MOV; N is always 0 and Z says that the immediate is 0. The step advances by 2. -/
def Obligations.CompactMovWritesTheImmediate : Prop :=
  ∀ (rd : LowReg) (imm : BitVec 8),
    (∀ s : State,
      exec (.cMov rd imm) s = .next
        { s with regs := s.regs.set (lowReg rd) (BitVec.ofNat 32 imm.toNat), z := decide (imm = 0#8), n := false })
    ∧ advancesBy (.cMov rd imm) 2#32

/-! ## Frames -/

/-- R130, R136, R137, R170, R28: the data-processing forms of both modes (AND, EOR, SUB, ADD, ORR, CMP, MOV, LSL and the compact
ADD, SUB, MOV) change their destination register and Z and N at most; register 15 never; the latch only for `Rd = 15`; no memory
and no cache state. -/
def Obligations.DataFormsFrame : Prop :=
  ∀ (i : Instr) (s t : State), isDataForm i = true → exec i s = .next t →
    (∀ r : Reg, writtenReg i ≠ some r ∨ r = 15 → t.readReg r = s.readReg r)
    ∧ (writtenReg i ≠ some 15 → t.flt = s.flt)
    ∧ t.c = s.c ∧ t.v = s.v ∧ t.mode = s.mode ∧ t.run = s.run ∧ t.store = s.store ∧ t.cache = s.cache
    ∧ ∀ a, t.mem.readByte a = s.mem.readByte a

/-- R151: LDR changes its destination register at most, the latch, and the data side of the cache hierarchy; no flag, no memory.
-/
def Obligations.LoadFrame : Prop :=
  ∀ (rd rn : Reg) (imm : BitVec 8) (s t : State), exec (.ldr rd rn imm) s = .next t →
    (∀ r : Reg, r ≠ rd ∨ r = 15 → t.readReg r = s.readReg r)
    ∧ t.z = s.z ∧ t.n = s.n ∧ t.c = s.c ∧ t.v = s.v ∧ t.mode = s.mode ∧ t.run = s.run ∧ t.store = s.store
    ∧ (faultRaised (.ldr rd rn imm) s = none → t.flt = s.flt)
    ∧ t.cache.geometry = s.cache.geometry ∧ t.cache.l1i = s.cache.l1i ∧ t.cache.iMiss = s.cache.iMiss
    ∧ ∀ a, t.mem.readByte a = s.mem.readByte a

/-- R152, R59: STR changes the four bytes of the word that contains `EA`, the latch, and the data side of the cache hierarchy;
no register and no flag. A STR that faults changes no byte at all. -/
def Obligations.StoreFrame : Prop :=
  ∀ (rd rn : Reg) (imm : BitVec 8) (s t : State), exec (.str rd rn imm) s = .next t →
    (∀ r : Reg, t.readReg r = s.readReg r)
    ∧ t.z = s.z ∧ t.n = s.n ∧ t.c = s.c ∧ t.v = s.v ∧ t.mode = s.mode ∧ t.run = s.run ∧ t.store = s.store
    ∧ (faultRaised (.str rd rn imm) s = none → t.flt = s.flt)
    ∧ t.cache.geometry = s.cache.geometry ∧ t.cache.l1i = s.cache.l1i ∧ t.cache.iMiss = s.cache.iMiss
    ∧ (∀ a : Nat, (a < 4 * ((s.effectiveAddress rn imm).toNat / 4)
          ∨ 4 * ((s.effectiveAddress rn imm).toNat / 4) + 4 ≤ a) → t.mem.readByte a = s.mem.readByte a)
    ∧ (faultRaised (.str rd rn imm) s ≠ none → ∀ a, t.mem.readByte a = s.mem.readByte a)

/-- R160, R161, R162: B and BX change register 15 alone, and BX the mode; no flag, no latch bit, no memory and no cache state.
-/
def Obligations.BranchFrame : Prop :=
  ∀ (i : Instr) (s t : State), isBranch i = true → exec i s = .next t →
    (∀ r : Reg, r ≠ 15 → t.readReg r = s.readReg r)
    ∧ (isBranchExchange i = false → t.mode = s.mode)
    ∧ t.z = s.z ∧ t.n = s.n ∧ t.c = s.c ∧ t.v = s.v ∧ t.flt = s.flt ∧ t.run = s.run ∧ t.store = s.store ∧ t.cache = s.cache
    ∧ ∀ a, t.mem.readByte a = s.mem.readByte a

/-! ## Faults -/

/-- R243 (the spec's D16): an instruction that raises a fault has no effect but its cause's sticky bit; one that raises none
leaves the latch alone; the step of a fetched instruction that raises one records it and goes on to the next instruction. -/
def Obligations.FaultingInstructionIsAbandoned : Prop :=
  ∀ (i : Instr) (s : State),
    (∀ ea, faultRaised i s = some (.memRange ea) → exec i s = .next (s.withLatch 0b01#2))
    ∧ (∀ r, faultRaised i s = some (.pcWrite r) → exec i s = .next (s.withLatch 0b10#2))
    ∧ (faultRaised i s = none → ∀ t, exec i s = .next t → t.flt = s.flt)
    ∧ ∀ (e : Entry) (f : RuntimeFault), s.fetches e → decode s.mode e.word = .instr i → faultRaised i s = some f →
        step s = .next
          { s with
            flt := s.flt ||| f.latchBit
            cache := s.cache.accessInstruction (sint (s.readReg 15)).toNat
            regs := s.regs.set 15 (s.readReg 15 + (if s.mode = .wide then 4#32 else 2#32)) }
        ∧ ∃ r, s.traceRecord = some r ∧ r.fault = some f

/-- R241, R245 (the spec's D15, D16, D17): the codes and latch bits, and which instructions raise which fault, with its `info`:
PC_WRITE for a wide destination of 15, MEM_RANGE for a LDR (whose destination is not 15) or STR whose effective address is
outside `[0, 4096)`. -/
def Obligations.FaultsAreRaisedExactlyWhenStated : Prop :=
  (∀ ea, (RuntimeFault.memRange ea).code = 1 ∧ (RuntimeFault.memRange ea).latchBit = 0b01#2)
  ∧ (∀ r, (RuntimeFault.pcWrite r).code = 2 ∧ (RuntimeFault.pcWrite r).latchBit = 0b10#2)
  ∧ ∀ (i : Instr) (s : State),
    (∀ r, faultRaised i s = some (.pcWrite r) ↔ r = 15 ∧ isBranch i = false ∧ writtenReg i = some 15)
    ∧ ∀ ea, faultRaised i s = some (.memRange ea) ↔
        (ea < 0 ∨ 4096 ≤ ea)
        ∧ ((∃ rd rn imm, i = .ldr rd rn imm ∧ rd ≠ 15 ∧ ea = sint (s.readReg rn) + 4 * (imm.toNat : Int))
          ∨ (∃ rd rn imm, i = .str rd rn imm ∧ ea = sint (s.readReg rn) + 4 * (imm.toNat : Int)))

/-- R30: the latch is sticky: no step clears a bit of it. -/
def Obligations.FaultLatchIsSticky : Prop :=
  ∀ s t : State, step s = .next t → s.flt &&& t.flt = s.flt

/-! ## Rules about the whole machine -/

/-- R163: reset sets the mode to Wide, and a step changes it only by executing a BX. -/
def Obligations.ModeChangesOnlyByBranchExchange : Prop :=
  (∀ (g : Geometry) (is : List Entry), (State.resetWith g is).mode = .wide)
  ∧ ∀ s t : State, step s = .next t → t.mode ≠ s.mode →
    ∃ e rm, s.fetches e ∧ (decode s.mode e.word = .instr (.bx rm) ∨ decode s.mode e.word = .instr (.cBx rm))

/-- R226: after a step that executed no B and no BX, faulting and UNKNOWN words included, the program counter has advanced by
`STEP(mode)`, whatever the entry's width tag, and the mode is the same. -/
def Obligations.OnlyBranchesLeaveTheSequence : Prop :=
  ∀ (s t : State) (e : Entry), s.fetches e → (∀ i, decode s.mode e.word = .instr i → isBranch i = false) →
    step s = .next t → t.mode = s.mode ∧ t.readReg 15 = s.readReg 15 + (if s.mode = .wide then 4#32 else 2#32)

/-- R27, R34, R54, R232: no step changes the instruction store, the geometry, C or V. -/
def Obligations.StepNeverChangesStoreGeometryCarryOrOverflow : Prop :=
  ∀ s t : State, step s = .next t →
    t.store = s.store ∧ t.cache.geometry = s.cache.geometry ∧ t.c = s.c ∧ t.v = s.v

/-- R33, R242: a step changes main memory only by a STR whose effective address is in range. -/
def Obligations.MemoryChangesOnlyByAnInRangeStore : Prop :=
  ∀ s t : State, step s = .next t → t.mem ≠ s.mem →
    ∃ e rd rn imm, s.fetches e ∧ decode s.mode e.word = .instr (.str rd rn imm)
      ∧ 0 ≤ sint (s.readReg rn) + 4 * (imm.toNat : Int) ∧ sint (s.readReg rn) + 4 * (imm.toNat : Int) < 4096

/-- R155, R223: the cache events of a step: one instruction access keyed by the program counter, then one data access keyed by
the effective address if the instruction was a LDR or STR that did not fault, and no other. -/
def Obligations.CacheEventsOfAStep : Prop :=
  ∀ (s t : State) (e : Entry), s.fetches e → step s = .next t →
    let h := s.cache.accessInstruction (sint (s.readReg 15)).toNat
    (∀ rd rn imm, decode s.mode e.word = .instr (.ldr rd rn imm) → faultRaised (.ldr rd rn imm) s = none →
      t.cache = h.accessData (sint (s.readReg rn) + 4 * (imm.toNat : Int)).toNat false)
    ∧ (∀ rd rn imm, decode s.mode e.word = .instr (.str rd rn imm) → faultRaised (.str rd rn imm) s = none →
      t.cache = h.accessData (sint (s.readReg rn) + 4 * (imm.toNat : Int)).toNat true)
    ∧ ((∀ rd rn imm, decode s.mode e.word = .instr (.ldr rd rn imm) → faultRaised (.ldr rd rn imm) s ≠ none) →
      (∀ rd rn imm, decode s.mode e.word = .instr (.str rd rn imm) → faultRaised (.str rd rn imm) s ≠ none) → t.cache = h)

/-- R36, R204: how far each counter grows in one step; a step that halts, or a halted machine, counts nothing. -/
def Obligations.CountersGrowByTheStatedAmounts : Prop :=
  ∀ s t : State, step s = .next t →
    s.cache.iMiss ≤ t.cache.iMiss ∧ t.cache.iMiss ≤ s.cache.iMiss + 1
    ∧ s.cache.dMiss ≤ t.cache.dMiss ∧ t.cache.dMiss ≤ s.cache.dMiss + 1
    ∧ s.cache.writebacks ≤ t.cache.writebacks ∧ t.cache.writebacks ≤ s.cache.writebacks + 1
    ∧ s.cache.l2Miss ≤ t.cache.l2Miss ∧ t.cache.l2Miss ≤ s.cache.l2Miss + 2
    ∧ (t.run = .halted → t.cache = s.cache)

/-- R202 (the spec's D28): the cost is half the integer `2 * cost`, never negative, and no step lowers it. -/
def Obligations.CostIsNonNegativeAndMonotone : Prop :=
  (∀ h : Hierarchy, h.cost = (1 / 2 : Rat) * h.iMiss + h.dMiss + h.l2Miss + h.writebacks
    ∧ 2 * h.cost = ((h.iMiss + 2 * (h.dMiss + h.l2Miss + h.writebacks) : Nat) : Rat) ∧ 0 ≤ h.cost)
  ∧ ∀ s t : State, step s = .next t → s.cache.cost ≤ t.cache.cost

/-- The property the spec derives in R206: two states that differ in the cache hierarchy at most, geometry included, step to two
states that differ in it at most: the processor never sees the caches. -/
def Obligations.ProcessorNeverSeesTheCaches : Prop :=
  ∀ s s' : State, s.sameButCache s' → ∃ t t', step s = .next t ∧ step s' = .next t' ∧ t.sameButCache t'

/-- R237 (the spec's D24): what the record of an executing step holds, registers and flags as they stand before the advance; a step
that halts emits none. That a halted machine, which takes no step, emits none either is R228's, in the form of log entry 6. -/
def Obligations.TraceRecordsTheExecutedInstruction : Prop :=
  (∀ s : State, s.run = .halted ∨ sint (s.readReg 15) < 0 ∨ sint (s.readReg 15) ≥ totalBytes s.store → s.traceRecord = none)
  ∧ ∀ (s : State) (e : Entry), s.fetches e →
    ∃ r t, s.traceRecord = some r ∧ step s = .next t
      ∧ r.pcFetch = sint (s.readReg 15) ∧ r.mode = s.mode ∧ r.decoded = decode s.mode e.word
      ∧ (∀ q : Reg, q ≠ 15 → r.regs[q] = t.readReg q)
      ∧ r.z = t.z ∧ r.n = t.n ∧ r.c = t.c ∧ r.v = t.v
      ∧ (∀ i, decode s.mode e.word = .instr i → r.fault = faultRaised i s ∧ r.storeAddr = storeAddress i s
          ∧ r.regs[(15 : Reg)] = (if isBranch i then t.readReg 15 else s.readReg 15))
      ∧ (decode s.mode e.word = .unknown → r.fault = none ∧ r.storeAddr = none ∧ r.regs[(15 : Reg)] = s.readReg 15)

/-! ## Main memory -/

/-- R58, R59: in a canonical memory a read of any byte address of the word just written gives the value written, and of any
other word what it gave before. -/
def Obligations.LoadReturnsTheLatestStore : Prop :=
  ∀ (s : State) (a b : Nat) (v : Word), s.mem.wf →
    (s.memWrite a v).memRead b = if b / 4 = a / 4 then v else s.memRead b

/-- The canonical form is one: two canonical memories that read alike are the same data (the model's own form, log entry 1). -/
def Obligations.CanonicalMemoriesThatReadAlikeAreEqual : Prop :=
  ∀ m m' : Memory, m.wf → m'.wf → (∀ a, m.readByte a = m'.readByte a) → m = m'

/-! ## The cache hierarchy -/

/-- R193: index and tag, and that together they name the block. -/
def Obligations.IndexAndTagNameTheBlock : Prop :=
  ∀ a b size slots : Nat, 0 < size → 0 < slots →
    cacheIndex a size slots = a / size % slots ∧ cacheTag a size slots = a / size / slots
    ∧ ((cacheIndex a size slots = cacheIndex b size slots ∧ cacheTag a size slots = cacheTag b size slots) ↔
        a / size = b / size)

/-- Two properties of R205, its (a) and (b): the first fetch at address 0 of a cold hierarchy misses in L1I and L2; an immediate
repeat of any fetch changes nothing. -/
def Obligations.ColdFetchMissesAndRepeatHits : Prop :=
  (∀ g : Geometry, g.legal = true →
    ((Hierarchy.cold g).accessInstruction 0).iMiss = 1 ∧ ((Hierarchy.cold g).accessInstruction 0).l2Miss = 1)
  ∧ ∀ (h : Hierarchy) (a : Nat), h.wf → (h.accessInstruction a).accessInstruction a = h.accessInstruction a

/-- What the spec derives in R51 (its D32): the L2 sees raw numbers. After a data access that misses in L1D, or an instruction access
that misses in L1I, a check of any address of the same L2 block hits, whichever space it came from. -/
def Obligations.SharedLevelTwoIgnoresTheSpace : Prop :=
  ∀ (h : Hierarchy) (a b : Nat), h.wf → a / h.geometry.l2BlockSize = b / h.geometry.l2BlockSize →
    (∀ isStore : Bool, (h.accessData a isStore).dMiss = h.dMiss + 1 →
      (h.accessData a isStore).checkL2 b = h.accessData a isStore)
    ∧ ((h.accessInstruction a).iMiss = h.iMiss + 1 → (h.accessInstruction a).checkL2 b = h.accessInstruction a)

/-- R199: `writebacks` grows by 1 exactly when a data access misses and the slot it replaces is valid and dirty. -/
def Obligations.WritebackCountsExactlyDirtyEvictions : Prop :=
  ∀ (h : Hierarchy) (a : Nat) (isStore : Bool) (l : Line),
    h.l1d[a / h.geometry.blockSize % h.geometry.l1dSlots]? = some l →
    (h.accessData a isStore).writebacks =
      if (l.valid = true ∧ l.tag = a / h.geometry.blockSize / h.geometry.l1dSlots) ∨ l.valid = false ∨ l.dirty = false
      then h.writebacks else h.writebacks + 1

/-- R196, R198, R200: the whole next hierarchy of the three operations, at any address of a well-formed hierarchy. Each looks at one
line `l`. A hit changes nothing, but that a store hit marks the line dirty. A miss counts, installs a fresh line and, in the L1
caches, checks L2 at the same address; an L1 hit never touches L2. -/
def Obligations.CacheOperationsActAsStatedOnHitAndMiss : Prop :=
  ∀ (h : Hierarchy) (a : Nat), h.wf → let g := h.geometry
    (let i := a / g.blockSize % g.l1iSlots
      let t := a / g.blockSize / g.l1iSlots
      ∃ l, h.l1i[i]? = some l
        ∧ (l.valid = true ∧ l.tag = t → h.accessInstruction a = h)
        ∧ (¬(l.valid = true ∧ l.tag = t) → h.accessInstruction a =
            { h with iMiss := h.iMiss + 1, l1i := h.l1i.set i { tag := t, dirty := false, valid := true } }.checkL2 a))
    ∧ (let i := a / g.blockSize % g.l1dSlots
      let t := a / g.blockSize / g.l1dSlots
      ∃ l, h.l1d[i]? = some l
        ∧ (l.valid = true ∧ l.tag = t → h.accessData a false = h
            ∧ h.accessData a true = { h with l1d := h.l1d.set i { l with dirty := true } })
        ∧ ∀ isStore : Bool, ¬(l.valid = true ∧ l.tag = t) → h.accessData a isStore =
            { h with
              dMiss := h.dMiss + 1
              writebacks := if l.valid = true ∧ l.dirty = true then h.writebacks + 1 else h.writebacks
              l1d := h.l1d.set i { tag := t, dirty := isStore, valid := true } }.checkL2 a)
    ∧ (let i := a / g.l2BlockSize % g.l2Slots
      let t := a / g.l2BlockSize / g.l2Slots
      ∃ l, h.l2[i]? = some l
        ∧ (l.valid = true ∧ l.tag = t → h.checkL2 a = h)
        ∧ (¬(l.valid = true ∧ l.tag = t) → h.checkL2 a =
            { h with l2Miss := h.l2Miss + 1, l2 := h.l2.set i { tag := t, dirty := false, valid := true } }))

/-! ## The host interface -/

/-- R250 with R8 (the spec's D19): `configure` accepts exactly five powers of two with capacities no smaller than their blocks.
-/
def Obligations.ConfigureAcceptsExactlyLegalGeometries : Prop :=
  ∀ g : Geometry,
    (∃ h, configure g = .ok h) ↔
      (∃ a b c d e : Nat, g.blockSize = 2 ^ a ∧ g.l1iCapacity = 2 ^ b ∧ g.l1dCapacity = 2 ^ c ∧ g.l2BlockSize = 2 ^ d
          ∧ g.l2Capacity = 2 ^ e)
        ∧ g.blockSize ≤ g.l1iCapacity ∧ g.blockSize ≤ g.l1dCapacity ∧ g.l2BlockSize ≤ g.l2Capacity

/-- From the spec's D27 and the model's own flag (log entry 15): `load` accepts exactly the calls that meet its preconditions,
and then replaces the store and nothing else. -/
def Obligations.LoadAcceptsExactlyItsPreconditions : Prop :=
  ∀ (h h' : Session) (ws bs : List Nat),
    h.load ws bs = .ok h' ↔
      h.started = false ∧ ws.length = bs.length
      ∧ (∀ p ∈ ws.zip bs, (p.2 = 16 ∨ p.2 = 32) ∧ p.1 < 2 ^ p.2)
      ∧ bs.sum / 8 < 2 ^ 31
      ∧ h' = { h with
          machine := { h.machine with
            store := (ws.zip bs).map (fun p =>
              { word := BitVec.ofNat 32 p.1, width := if p.2 = 16 then .w16 else .w32 }) } }

/-- From the spec's D18 and the model's own flag (log entry 15): before the first step the host may set `x[0]` to `x[14]` and
any word of `M`, and nothing else. -/
def Obligations.PreloadReachesRegistersAndMemoryOnly : Prop :=
  (∀ (h h' : Session) (r : Reg) (v : Word),
    h.preloadReg r v = .ok h' ↔ h.started = false ∧ r ≠ 15 ∧ h' = { h with machine := h.machine.writeReg r v })
  ∧ ∀ (h h' : Session) (k : Nat) (v : Word),
    h.preloadWord k v = .ok h' ↔ h.started = false ∧ k < 1024
      ∧ h' = { h with machine := { h.machine with mem := h.machine.mem.setWord k v } }
end

