-- ==== Sys2Proof/Laws/Cache.lean ====
section
/-!
SUPPORT. What the three cache operations can do, once, and that each keeps the hierarchy's invariant.
-/

namespace Sys2Proof.Machine

/-- The line a miss installs. -/
def freshLine (tag : Nat) (dirty : Bool) : Line := { tag := tag, dirty := dirty, valid := true }

/-- `CheckL2` either changes nothing or counts one L2 miss and installs one clean line. -/
theorem Hierarchy.checkL2_cases (h : Hierarchy) (a : Nat) :
    h.checkL2 a = h ∨ ∃ i t, h.checkL2 a = { h with l2Miss := h.l2Miss + 1, l2 := h.l2.set i (freshLine t false) } := by
  unfold Hierarchy.checkL2
  simp only
  split
  · exact .inl rfl
  · exact .inr ⟨_, _, rfl⟩

/-- `AccessInstruction` either changes nothing or counts one L1I miss, installs one clean line and checks L2. -/
theorem Hierarchy.accessInstruction_cases (h : Hierarchy) (a : Nat) :
    h.accessInstruction a = h ∨ ∃ i t, h.accessInstruction a =
      { h with iMiss := h.iMiss + 1, l1i := h.l1i.set i (freshLine t false) }.checkL2 a := by
  unfold Hierarchy.accessInstruction
  simp only
  split
  · exact .inl rfl
  · exact .inr ⟨_, _, rfl⟩

/-- `AccessData` changes nothing, or marks a valid line dirty, or counts one L1D miss, a writeback at most, installs one line
and checks L2. -/
theorem Hierarchy.accessData_cases (h : Hierarchy) (a : Nat) (b : Bool) :
    h.accessData a b = h
      ∨ (∃ i, (lineAt h.l1d i).valid = true ∧
          h.accessData a b = { h with l1d := h.l1d.set i { lineAt h.l1d i with dirty := true } })
      ∨ ∃ i t w, w ≤ 1 ∧ h.accessData a b =
          { h with dMiss := h.dMiss + 1, writebacks := h.writebacks + w, l1d := h.l1d.set i (freshLine t b) }.checkL2 a := by
  unfold Hierarchy.accessData
  simp only
  split
  · next hit =>
    split
    · exact .inr (.inl ⟨_, by simp [Line.hits] at hit; exact hit.1, rfl⟩)
    · exact .inl rfl
  · exact .inr (.inr ⟨_, _, _, by split <;> omega, rfl⟩)

theorem forall_mem_set {α : Type} {l : List α} {p : α → Prop} (h : ∀ x ∈ l, p x) (i : Nat) {y : α} (hy : p y) :
    ∀ x ∈ l.set i y, p x := by
  intro x hx
  rcases List.mem_or_eq_of_mem_set hx with hx | rfl
  · exact h x hx
  · exact hy

/-- The fields `CheckL2` leaves alone, and the bound on its counter. -/
theorem Hierarchy.checkL2_frame (h : Hierarchy) (a : Nat) :
    (h.checkL2 a).geometry = h.geometry ∧ (h.checkL2 a).l1i = h.l1i ∧ (h.checkL2 a).l1d = h.l1d
      ∧ (h.checkL2 a).iMiss = h.iMiss ∧ (h.checkL2 a).dMiss = h.dMiss ∧ (h.checkL2 a).writebacks = h.writebacks
      ∧ h.l2Miss ≤ (h.checkL2 a).l2Miss ∧ (h.checkL2 a).l2Miss ≤ h.l2Miss + 1 := by
  rcases h.checkL2_cases a with e | ⟨i, t, e⟩ <;> simp [e]

/-- `CheckL2` keeps the shape of the L2 array. -/
theorem Hierarchy.checkL2_l2 (h : Hierarchy) (a : Nat) (hd : ∀ l ∈ h.l2, l.dirty = false) :
    (h.checkL2 a).l2.length = h.l2.length ∧ ∀ l ∈ (h.checkL2 a).l2, l.dirty = false := by
  rcases h.checkL2_cases a with e | ⟨i, t, e⟩
  · rw [e]
    exact ⟨rfl, hd⟩
  · rw [e]
    exact ⟨by simp, forall_mem_set hd i rfl⟩

theorem Hierarchy.wf_accessInstruction {h : Hierarchy} (hw : h.wf) (a : Nat) : (h.accessInstruction a).wf := by
  rcases h.accessInstruction_cases a with e | ⟨i, t, e⟩
  · rwa [e]
  · obtain ⟨hg, hi, hd, h2, ci, c2, cd, m1, m2⟩ := hw
    rw [e]
    obtain ⟨f1, f2, f3, f4, f5, f6, f7, f8⟩ :=
      Hierarchy.checkL2_frame { h with iMiss := h.iMiss + 1, l1i := h.l1i.set i (freshLine t false) } a
    obtain ⟨k1, k2⟩ :=
      Hierarchy.checkL2_l2 { h with iMiss := h.iMiss + 1, l1i := h.l1i.set i (freshLine t false) } a c2
    unfold Hierarchy.wf
    rw [f1, f2, f3, f4, f5, f6, k1]
    refine ⟨hg, by simpa using hi, hd, h2, forall_mem_set ci i rfl, k2, cd, ?_, m2⟩
    simp only at f8 ⊢
    omega

theorem Hierarchy.wf_accessData {h : Hierarchy} (hw : h.wf) (a : Nat) (b : Bool) : (h.accessData a b).wf := by
  rcases h.accessData_cases a b with e | ⟨i, hv, e⟩ | ⟨i, t, w, hw1, e⟩
  · rwa [e]
  · obtain ⟨hg, hi, hd, h2, ci, c2, cd, m1, m2⟩ := hw
    rw [e]
    exact ⟨hg, hi, by simpa using hd, h2, ci, c2, forall_mem_set cd i (fun _ => hv), m1, m2⟩
  · obtain ⟨hg, hi, hd, h2, ci, c2, cd, m1, m2⟩ := hw
    rw [e]
    let h' : Hierarchy :=
      { h with dMiss := h.dMiss + 1, writebacks := h.writebacks + w, l1d := h.l1d.set i (freshLine t b) }
    obtain ⟨f1, f2, f3, f4, f5, f6, f7, f8⟩ := Hierarchy.checkL2_frame h' a
    obtain ⟨k1, k2⟩ := Hierarchy.checkL2_l2 h' a c2
    change (h'.checkL2 a).wf
    unfold Hierarchy.wf
    rw [f1, f2, f3, f4, f5, f6, k1]
    refine ⟨hg, hi, by simpa [h'] using hd, h2, ci, k2, forall_mem_set cd i (fun _ => rfl), ?_, ?_⟩
    · simp only [h'] at f8 ⊢
      omega
    · simp only [h']
      omega

/-- A power of two is positive. -/
theorem isPowerOfTwo_pos {n : Nat} (h : isPowerOfTwo n = true) : 0 < n := by
  simp only [isPowerOfTwo, beq_iff_eq] at h
  exact h ▸ Nat.two_pow_pos _

/-- In a legal geometry every slot count is at least 1 (R8, R192). -/
theorem Geometry.slots_pos {g : Geometry} (h : g.legal = true) : 0 < g.l1iSlots ∧ 0 < g.l1dSlots ∧ 0 < g.l2Slots := by
  simp only [Geometry.legal, Bool.and_eq_true, decide_eq_true_eq] at h
  obtain ⟨⟨⟨⟨⟨⟨⟨hb, -⟩, -⟩, h2⟩, -⟩, hi⟩, hd⟩, hc⟩ := h
  exact ⟨Nat.div_pos hi (isPowerOfTwo_pos hb), Nat.div_pos hd (isPowerOfTwo_pos hb), Nat.div_pos hc (isPowerOfTwo_pos h2)⟩

/-- In a well-formed hierarchy every address has its slot in each array. -/
theorem Hierarchy.wf_index_lt {h : Hierarchy} (hw : h.wf) (a : Nat) :
    cacheIndex a h.geometry.blockSize h.geometry.l1iSlots < h.l1i.length
      ∧ cacheIndex a h.geometry.blockSize h.geometry.l1dSlots < h.l1d.length
      ∧ cacheIndex a h.geometry.l2BlockSize h.geometry.l2Slots < h.l2.length := by
  obtain ⟨hg, hi, hd, h2, -⟩ := hw
  obtain ⟨pi, pd, p2⟩ := Geometry.slots_pos hg
  rw [hi, hd, h2]
  exact ⟨Nat.mod_lt _ pi, Nat.mod_lt _ pd, Nat.mod_lt _ p2⟩

/-- What `lineAt` reads inside an array. -/
theorem getElem?_eq_lineAt {lines : List Line} {i : Nat} (h : i < lines.length) : lines[i]? = some (lineAt lines i) := by
  simp [lineAt, h]

/-- A cold hierarchy of a legal geometry meets the invariant. -/
theorem Hierarchy.wf_cold {g : Geometry} (hg : g.legal = true) : (Hierarchy.cold g).wf := by
  refine ⟨hg, ?_, ?_, ?_, ?_, ?_, ?_, ?_, ?_⟩ <;> simp +contextual [Hierarchy.cold, Line.invalid]

end Sys2Proof.Machine
end

