-- ==== Sys2Proof/Laws/State.lean ====
section
/-!
SUPPORT. What each state update does to each field, one lemma per field and update, and reading a register after a write.
-/

namespace Sys2Proof.Machine

/-! ## `writeReg` -/

@[simp] theorem State.writeReg_regs (s : State) (r : Reg) (x : Word) : (s.writeReg r x).regs = s.regs.set r x := rfl
@[simp] theorem State.writeReg_z (s : State) (r : Reg) (x : Word) : (s.writeReg r x).z = s.z := rfl
@[simp] theorem State.writeReg_n (s : State) (r : Reg) (x : Word) : (s.writeReg r x).n = s.n := rfl
@[simp] theorem State.writeReg_c (s : State) (r : Reg) (x : Word) : (s.writeReg r x).c = s.c := rfl
@[simp] theorem State.writeReg_v (s : State) (r : Reg) (x : Word) : (s.writeReg r x).v = s.v := rfl
@[simp] theorem State.writeReg_mode (s : State) (r : Reg) (x : Word) : (s.writeReg r x).mode = s.mode := rfl
@[simp] theorem State.writeReg_flt (s : State) (r : Reg) (x : Word) : (s.writeReg r x).flt = s.flt := rfl
@[simp] theorem State.writeReg_run (s : State) (r : Reg) (x : Word) : (s.writeReg r x).run = s.run := rfl
@[simp] theorem State.writeReg_mem (s : State) (r : Reg) (x : Word) : (s.writeReg r x).mem = s.mem := rfl
@[simp] theorem State.writeReg_store (s : State) (r : Reg) (x : Word) : (s.writeReg r x).store = s.store := rfl
@[simp] theorem State.writeReg_cache (s : State) (r : Reg) (x : Word) : (s.writeReg r x).cache = s.cache := rfl

/-! ## `setPc` -/

@[simp] theorem State.setPc_regs (s : State) (x : Word) : (s.setPc x).regs = s.regs.set 15 x := rfl
@[simp] theorem State.setPc_z (s : State) (x : Word) : (s.setPc x).z = s.z := rfl
@[simp] theorem State.setPc_n (s : State) (x : Word) : (s.setPc x).n = s.n := rfl
@[simp] theorem State.setPc_c (s : State) (x : Word) : (s.setPc x).c = s.c := rfl
@[simp] theorem State.setPc_v (s : State) (x : Word) : (s.setPc x).v = s.v := rfl
@[simp] theorem State.setPc_mode (s : State) (x : Word) : (s.setPc x).mode = s.mode := rfl
@[simp] theorem State.setPc_flt (s : State) (x : Word) : (s.setPc x).flt = s.flt := rfl
@[simp] theorem State.setPc_run (s : State) (x : Word) : (s.setPc x).run = s.run := rfl
@[simp] theorem State.setPc_mem (s : State) (x : Word) : (s.setPc x).mem = s.mem := rfl
@[simp] theorem State.setPc_store (s : State) (x : Word) : (s.setPc x).store = s.store := rfl
@[simp] theorem State.setPc_cache (s : State) (x : Word) : (s.setPc x).cache = s.cache := rfl

/-! ## `setMode` -/

@[simp] theorem State.setMode_regs (s : State) (m : Mode) : (s.setMode m).regs = s.regs := rfl
@[simp] theorem State.setMode_z (s : State) (m : Mode) : (s.setMode m).z = s.z := rfl
@[simp] theorem State.setMode_n (s : State) (m : Mode) : (s.setMode m).n = s.n := rfl
@[simp] theorem State.setMode_c (s : State) (m : Mode) : (s.setMode m).c = s.c := rfl
@[simp] theorem State.setMode_v (s : State) (m : Mode) : (s.setMode m).v = s.v := rfl
@[simp] theorem State.setMode_mode (s : State) (m : Mode) : (s.setMode m).mode = m := rfl
@[simp] theorem State.setMode_flt (s : State) (m : Mode) : (s.setMode m).flt = s.flt := rfl
@[simp] theorem State.setMode_run (s : State) (m : Mode) : (s.setMode m).run = s.run := rfl
@[simp] theorem State.setMode_mem (s : State) (m : Mode) : (s.setMode m).mem = s.mem := rfl
@[simp] theorem State.setMode_store (s : State) (m : Mode) : (s.setMode m).store = s.store := rfl
@[simp] theorem State.setMode_cache (s : State) (m : Mode) : (s.setMode m).cache = s.cache := rfl

/-! ## `memWrite` -/

@[simp] theorem State.memWrite_regs (s : State) (a : Nat) (x : Word) : (s.memWrite a x).regs = s.regs := rfl
@[simp] theorem State.memWrite_z (s : State) (a : Nat) (x : Word) : (s.memWrite a x).z = s.z := rfl
@[simp] theorem State.memWrite_n (s : State) (a : Nat) (x : Word) : (s.memWrite a x).n = s.n := rfl
@[simp] theorem State.memWrite_c (s : State) (a : Nat) (x : Word) : (s.memWrite a x).c = s.c := rfl
@[simp] theorem State.memWrite_v (s : State) (a : Nat) (x : Word) : (s.memWrite a x).v = s.v := rfl
@[simp] theorem State.memWrite_mode (s : State) (a : Nat) (x : Word) : (s.memWrite a x).mode = s.mode := rfl
@[simp] theorem State.memWrite_flt (s : State) (a : Nat) (x : Word) : (s.memWrite a x).flt = s.flt := rfl
@[simp] theorem State.memWrite_run (s : State) (a : Nat) (x : Word) : (s.memWrite a x).run = s.run := rfl
@[simp] theorem State.memWrite_mem (s : State) (a : Nat) (x : Word) : (s.memWrite a x).mem = s.mem.setWord (a / 4) x := rfl
@[simp] theorem State.memWrite_store (s : State) (a : Nat) (x : Word) : (s.memWrite a x).store = s.store := rfl
@[simp] theorem State.memWrite_cache (s : State) (a : Nat) (x : Word) : (s.memWrite a x).cache = s.cache := rfl

/-! ## `latchFault` -/

@[simp] theorem State.latchFault_regs (s : State) (f : RuntimeFault) : (s.latchFault f).regs = s.regs := rfl
@[simp] theorem State.latchFault_z (s : State) (f : RuntimeFault) : (s.latchFault f).z = s.z := rfl
@[simp] theorem State.latchFault_n (s : State) (f : RuntimeFault) : (s.latchFault f).n = s.n := rfl
@[simp] theorem State.latchFault_c (s : State) (f : RuntimeFault) : (s.latchFault f).c = s.c := rfl
@[simp] theorem State.latchFault_v (s : State) (f : RuntimeFault) : (s.latchFault f).v = s.v := rfl
@[simp] theorem State.latchFault_mode (s : State) (f : RuntimeFault) : (s.latchFault f).mode = s.mode := rfl
@[simp] theorem State.latchFault_flt (s : State) (f : RuntimeFault) : (s.latchFault f).flt = s.flt ||| f.latchBit := rfl
@[simp] theorem State.latchFault_run (s : State) (f : RuntimeFault) : (s.latchFault f).run = s.run := rfl
@[simp] theorem State.latchFault_mem (s : State) (f : RuntimeFault) : (s.latchFault f).mem = s.mem := rfl
@[simp] theorem State.latchFault_store (s : State) (f : RuntimeFault) : (s.latchFault f).store = s.store := rfl
@[simp] theorem State.latchFault_cache (s : State) (f : RuntimeFault) : (s.latchFault f).cache = s.cache := rfl

/-! ## `setZN` -/

@[simp] theorem State.setZN_regs (s : State) (x : Word) : (s.setZN x).regs = s.regs := rfl
@[simp] theorem State.setZN_z (s : State) (x : Word) : (s.setZN x).z = zeroFlag x := rfl
@[simp] theorem State.setZN_n (s : State) (x : Word) : (s.setZN x).n = negativeFlag x := rfl
@[simp] theorem State.setZN_c (s : State) (x : Word) : (s.setZN x).c = s.c := rfl
@[simp] theorem State.setZN_v (s : State) (x : Word) : (s.setZN x).v = s.v := rfl
@[simp] theorem State.setZN_mode (s : State) (x : Word) : (s.setZN x).mode = s.mode := rfl
@[simp] theorem State.setZN_flt (s : State) (x : Word) : (s.setZN x).flt = s.flt := rfl
@[simp] theorem State.setZN_run (s : State) (x : Word) : (s.setZN x).run = s.run := rfl
@[simp] theorem State.setZN_mem (s : State) (x : Word) : (s.setZN x).mem = s.mem := rfl
@[simp] theorem State.setZN_store (s : State) (x : Word) : (s.setZN x).store = s.store := rfl
@[simp] theorem State.setZN_cache (s : State) (x : Word) : (s.setZN x).cache = s.cache := rfl

/-! ## `writeResult` -/

@[simp] theorem State.writeResult_regs (s : State) (r : Reg) (x : Word) : (s.writeResult r x).regs = s.regs.set r x := rfl
@[simp] theorem State.writeResult_z (s : State) (r : Reg) (x : Word) : (s.writeResult r x).z = zeroFlag x := rfl
@[simp] theorem State.writeResult_n (s : State) (r : Reg) (x : Word) : (s.writeResult r x).n = negativeFlag x := rfl
@[simp] theorem State.writeResult_c (s : State) (r : Reg) (x : Word) : (s.writeResult r x).c = s.c := rfl
@[simp] theorem State.writeResult_v (s : State) (r : Reg) (x : Word) : (s.writeResult r x).v = s.v := rfl
@[simp] theorem State.writeResult_mode (s : State) (r : Reg) (x : Word) : (s.writeResult r x).mode = s.mode := rfl
@[simp] theorem State.writeResult_flt (s : State) (r : Reg) (x : Word) : (s.writeResult r x).flt = s.flt := rfl
@[simp] theorem State.writeResult_run (s : State) (r : Reg) (x : Word) : (s.writeResult r x).run = s.run := rfl
@[simp] theorem State.writeResult_mem (s : State) (r : Reg) (x : Word) : (s.writeResult r x).mem = s.mem := rfl
@[simp] theorem State.writeResult_store (s : State) (r : Reg) (x : Word) : (s.writeResult r x).store = s.store := rfl
@[simp] theorem State.writeResult_cache (s : State) (r : Reg) (x : Word) : (s.writeResult r x).cache = s.cache := rfl

/-! ## `accessInstruction` -/

@[simp] theorem State.accessInstruction_regs (s : State) (a : Nat) : (s.accessInstruction a).regs = s.regs := rfl
@[simp] theorem State.accessInstruction_z (s : State) (a : Nat) : (s.accessInstruction a).z = s.z := rfl
@[simp] theorem State.accessInstruction_n (s : State) (a : Nat) : (s.accessInstruction a).n = s.n := rfl
@[simp] theorem State.accessInstruction_c (s : State) (a : Nat) : (s.accessInstruction a).c = s.c := rfl
@[simp] theorem State.accessInstruction_v (s : State) (a : Nat) : (s.accessInstruction a).v = s.v := rfl
@[simp] theorem State.accessInstruction_mode (s : State) (a : Nat) : (s.accessInstruction a).mode = s.mode := rfl
@[simp] theorem State.accessInstruction_flt (s : State) (a : Nat) : (s.accessInstruction a).flt = s.flt := rfl
@[simp] theorem State.accessInstruction_run (s : State) (a : Nat) : (s.accessInstruction a).run = s.run := rfl
@[simp] theorem State.accessInstruction_mem (s : State) (a : Nat) : (s.accessInstruction a).mem = s.mem := rfl
@[simp] theorem State.accessInstruction_store (s : State) (a : Nat) : (s.accessInstruction a).store = s.store := rfl
@[simp] theorem State.accessInstruction_cache (s : State) (a : Nat) : (s.accessInstruction a).cache = s.cache.accessInstruction a := rfl

/-! ## `accessData` -/

@[simp] theorem State.accessData_regs (s : State) (a : Nat) (b : Bool) : (s.accessData a b).regs = s.regs := rfl
@[simp] theorem State.accessData_z (s : State) (a : Nat) (b : Bool) : (s.accessData a b).z = s.z := rfl
@[simp] theorem State.accessData_n (s : State) (a : Nat) (b : Bool) : (s.accessData a b).n = s.n := rfl
@[simp] theorem State.accessData_c (s : State) (a : Nat) (b : Bool) : (s.accessData a b).c = s.c := rfl
@[simp] theorem State.accessData_v (s : State) (a : Nat) (b : Bool) : (s.accessData a b).v = s.v := rfl
@[simp] theorem State.accessData_mode (s : State) (a : Nat) (b : Bool) : (s.accessData a b).mode = s.mode := rfl
@[simp] theorem State.accessData_flt (s : State) (a : Nat) (b : Bool) : (s.accessData a b).flt = s.flt := rfl
@[simp] theorem State.accessData_run (s : State) (a : Nat) (b : Bool) : (s.accessData a b).run = s.run := rfl
@[simp] theorem State.accessData_mem (s : State) (a : Nat) (b : Bool) : (s.accessData a b).mem = s.mem := rfl
@[simp] theorem State.accessData_store (s : State) (a : Nat) (b : Bool) : (s.accessData a b).store = s.store := rfl
@[simp] theorem State.accessData_cache (s : State) (a : Nat) (b : Bool) : (s.accessData a b).cache = s.cache.accessData a b := rfl

/-! ## `instructionEvent` -/

@[simp] theorem State.instructionEvent_regs (s : State) : (s.instructionEvent).regs = s.regs := rfl
@[simp] theorem State.instructionEvent_z (s : State) : (s.instructionEvent).z = s.z := rfl
@[simp] theorem State.instructionEvent_n (s : State) : (s.instructionEvent).n = s.n := rfl
@[simp] theorem State.instructionEvent_c (s : State) : (s.instructionEvent).c = s.c := rfl
@[simp] theorem State.instructionEvent_v (s : State) : (s.instructionEvent).v = s.v := rfl
@[simp] theorem State.instructionEvent_mode (s : State) : (s.instructionEvent).mode = s.mode := rfl
@[simp] theorem State.instructionEvent_flt (s : State) : (s.instructionEvent).flt = s.flt := rfl
@[simp] theorem State.instructionEvent_run (s : State) : (s.instructionEvent).run = s.run := rfl
@[simp] theorem State.instructionEvent_mem (s : State) : (s.instructionEvent).mem = s.mem := rfl
@[simp] theorem State.instructionEvent_store (s : State) : (s.instructionEvent).store = s.store := rfl
@[simp] theorem State.instructionEvent_cache (s : State) : (s.instructionEvent).cache = s.cache.accessInstruction s.pcOffset.toNat := rfl

/-! ## `halt` -/

@[simp] theorem State.halt_regs (s : State) : (s.halt).regs = s.regs := rfl
@[simp] theorem State.halt_z (s : State) : (s.halt).z = s.z := rfl
@[simp] theorem State.halt_n (s : State) : (s.halt).n = s.n := rfl
@[simp] theorem State.halt_c (s : State) : (s.halt).c = s.c := rfl
@[simp] theorem State.halt_v (s : State) : (s.halt).v = s.v := rfl
@[simp] theorem State.halt_mode (s : State) : (s.halt).mode = s.mode := rfl
@[simp] theorem State.halt_flt (s : State) : (s.halt).flt = s.flt := rfl
@[simp] theorem State.halt_run (s : State) : (s.halt).run = .halted := rfl
@[simp] theorem State.halt_mem (s : State) : (s.halt).mem = s.mem := rfl
@[simp] theorem State.halt_store (s : State) : (s.halt).store = s.store := rfl
@[simp] theorem State.halt_cache (s : State) : (s.halt).cache = s.cache := rfl

/-! ## `advance` -/

@[simp] theorem State.advance_regs (s : State) : (s.advance).regs = s.regs.set 15 (s.pc + BitVec.ofNat 32 (stepBytes s.mode)) := rfl
@[simp] theorem State.advance_z (s : State) : (s.advance).z = s.z := rfl
@[simp] theorem State.advance_n (s : State) : (s.advance).n = s.n := rfl
@[simp] theorem State.advance_c (s : State) : (s.advance).c = s.c := rfl
@[simp] theorem State.advance_v (s : State) : (s.advance).v = s.v := rfl
@[simp] theorem State.advance_mode (s : State) : (s.advance).mode = s.mode := rfl
@[simp] theorem State.advance_flt (s : State) : (s.advance).flt = s.flt := rfl
@[simp] theorem State.advance_run (s : State) : (s.advance).run = s.run := rfl
@[simp] theorem State.advance_mem (s : State) : (s.advance).mem = s.mem := rfl
@[simp] theorem State.advance_store (s : State) : (s.advance).store = s.store := rfl
@[simp] theorem State.advance_cache (s : State) : (s.advance).cache = s.cache := rfl

/-! ## Reading registers -/

@[simp] theorem State.readReg_writeReg_self (s : State) (r : Reg) (x : Word) : (s.writeReg r x).readReg r = x := by
  simp [State.readReg]

theorem State.readReg_writeReg_of_ne (s : State) {r q : Reg} (x : Word) (h : q ≠ r) :
    (s.writeReg r x).readReg q = s.readReg q := by
  have h' : (r : Nat) ≠ q := fun e => h (Fin.ext e.symm)
  simp [State.readReg, Vector.getElem_set_ne, h']

/-- A register read depends on the registers alone. -/
theorem State.readReg_congr {s t : State} (h : s.regs = t.regs) (r : Reg) : s.readReg r = t.readReg r := by
  simp [State.readReg, h]

@[simp] theorem State.pc_setPc (s : State) (x : Word) : (s.setPc x).pc = x := s.readReg_writeReg_self 15 x

@[simp] theorem State.readReg_setPc_of_ne (s : State) {q : Reg} (x : Word) (h : q ≠ 15) :
    (s.setPc x).readReg q = s.readReg q := s.readReg_writeReg_of_ne x h

@[simp] theorem State.readReg_setMode (s : State) (m : Mode) (q : Reg) : (s.setMode m).readReg q = s.readReg q := rfl
@[simp] theorem State.readReg_memWrite (s : State) (a : Nat) (x : Word) (q : Reg) :
    (s.memWrite a x).readReg q = s.readReg q := rfl
@[simp] theorem State.readReg_latchFault (s : State) (f : RuntimeFault) (q : Reg) :
    (s.latchFault f).readReg q = s.readReg q := rfl
@[simp] theorem State.readReg_setZN (s : State) (x : Word) (q : Reg) : (s.setZN x).readReg q = s.readReg q := rfl
@[simp] theorem State.readReg_accessData (s : State) (a : Nat) (b : Bool) (q : Reg) :
    (s.accessData a b).readReg q = s.readReg q := rfl
@[simp] theorem State.readReg_instructionEvent (s : State) (q : Reg) :
    s.instructionEvent.readReg q = s.readReg q := rfl
@[simp] theorem State.readReg_halt (s : State) (q : Reg) : s.halt.readReg q = s.readReg q := rfl

@[simp] theorem State.readReg_writeResult_self (s : State) (r : Reg) (x : Word) : (s.writeResult r x).readReg r = x :=
  s.readReg_writeReg_self r x

theorem State.readReg_writeResult_of_ne (s : State) {r q : Reg} (x : Word) (h : q ≠ r) :
    (s.writeResult r x).readReg q = s.readReg q := s.readReg_writeReg_of_ne x h

/-- A low register is never the program counter (R22). -/
theorem lowReg_ne_pc (r : LowReg) : lowReg r ≠ 15 := by
  intro h
  have := congrArg Fin.val h
  have := r.isLt
  simp [lowReg] at *
  omega

end Sys2Proof.Machine
end

