-- ==== Sys2Proof/Laws/Exec.lean ====
section
/-!
SUPPORT. What each shared operation of the meanings answers, and one inversion lemma for `exec`: every instruction answers a next
state of one of seven shapes.
-/

namespace Sys2Proof.Machine

@[simp] theorem destFault_eq_none {rd : Reg} : destFault rd = none ↔ rd ≠ 15 := by
  unfold destFault
  split <;> simp_all

theorem destFault_of_pc {rd : Reg} (h : rd = 15) : destFault rd = some (.pcWrite rd) := if_pos h

theorem destFault_of_ne {rd : Reg} (h : rd ≠ 15) : destFault rd = none := if_neg h

theorem addressFault_of_inRange {ea : Int} (h0 : 0 ≤ ea) (h1 : ea < 4096) : addressFault ea = none := by
  unfold addressFault
  rw [if_neg]
  simp only [memBytes]
  omega

theorem addressFault_of_outOfRange {ea : Int} (h : ea < 0 ∨ 4096 ≤ ea) : addressFault ea = some (.memRange ea) := by
  unfold addressFault
  rw [if_pos]
  simp only [memBytes]
  omega

theorem addressFault_eq_none {ea : Int} : addressFault ea = none ↔ 0 ≤ ea ∧ ea < 4096 := by
  constructor
  · intro h
    by_contra hn
    rw [addressFault_of_outOfRange (by omega)] at h
    cases h
  · exact fun h => addressFault_of_inRange h.1 h.2

/-- An integer address in range names a byte of the data space. -/
theorem toNat_lt_memBytes {ea : Int} (h0 : 0 ≤ ea) (h1 : ea < 4096) : ea.toNat < memBytes := by
  simp only [memBytes]
  omega

theorem execDataProcessing_of_ne (op : Word → Word → Word) {rd : Reg} (rn rm : Reg) (s : State) (h : rd ≠ 15) :
    execDataProcessing op rd rn rm s = .next (s.writeResult rd (op (s.readReg rn) (s.readReg rm))) := by
  simp [execDataProcessing, destFault_of_ne h]

theorem execDataProcessing_of_pc (op : Word → Word → Word) {rd : Reg} (rn rm : Reg) (s : State) (h : rd = 15) :
    execDataProcessing op rd rn rm s = .next (s.latchFault (.pcWrite rd)) := by
  simp [execDataProcessing, destFault_of_pc h, raiseFault]

theorem execMov_of_ne {rd : Reg} (imm : BitVec 8) (s : State) (h : rd ≠ 15) :
    execMov rd imm s = .next (s.writeResult rd (zextImm imm)) := by
  simp [execMov, destFault_of_ne h]

theorem execMov_of_pc {rd : Reg} (imm : BitVec 8) (s : State) (h : rd = 15) :
    execMov rd imm s = .next (s.latchFault (.pcWrite rd)) := by
  simp [execMov, destFault_of_pc h, raiseFault]

theorem ldrFault_eq_none {rd rn : Reg} {imm : BitVec 8} {s : State} :
    ldrFault rd rn imm s = none ↔ rd ≠ 15 ∧ 0 ≤ s.effectiveAddress rn imm ∧ s.effectiveAddress rn imm < 4096 := by
  simp [ldrFault, addressFault_eq_none]

/-- An LDR raises its fault, or loads one word and issues one data-cache access. -/
theorem execLdr_cases (rd rn : Reg) (imm : BitVec 8) (s : State) :
    (∃ f, ldrFault rd rn imm s = some f ∧ execLdr rd rn imm s = .next (s.latchFault f))
      ∨ (ldrFault rd rn imm s = none ∧ execLdr rd rn imm s =
          .next ((s.writeReg rd (s.memRead (s.effectiveAddress rn imm).toNat)).accessData
            (s.effectiveAddress rn imm).toNat false)) := by
  unfold execLdr
  cases h : ldrFault rd rn imm s with
  | none => exact .inr ⟨rfl, rfl⟩
  | some f => exact .inl ⟨f, rfl, rfl⟩

/-- A STR raises its fault, or stores one word and issues one data-cache access. -/
theorem execStr_cases (rd rn : Reg) (imm : BitVec 8) (s : State) :
    (∃ f, strFault rn imm s = some f ∧ execStr rd rn imm s = .next (s.latchFault f))
      ∨ (strFault rn imm s = none ∧ execStr rd rn imm s =
          .next ((s.memWrite (s.effectiveAddress rn imm).toNat (s.readReg rd)).accessData
            (s.effectiveAddress rn imm).toNat true)) := by
  unfold execStr
  cases h : strFault rn imm s with
  | none => exact .inr ⟨rfl, rfl⟩
  | some f => exact .inl ⟨f, rfl, rfl⟩

/-- What an execution can make of a state, and why. -/
inductive ExecShape (i : Instr) (s : State) : State → Prop where
  | fault (f : RuntimeFault) (h : faultRaised i s = some f) : ExecShape i s (s.latchFault f)
  | result (rd : Reg) (x : Word) (h : rd ≠ 15) (hw : writtenReg i = some rd) (hf : writesFlags i = true)
      (hn : faultRaised i s = none) : ExecShape i s (s.writeResult rd x)
  | flags (rn rm : Reg) (x : Word) (hi : i = .cmp rn rm) : ExecShape i s (s.setZN x)
  | load (rd rn : Reg) (imm : BitVec 8) (hi : i = .ldr rd rn imm) (h : rd ≠ 15) (h0 : 0 ≤ s.effectiveAddress rn imm)
      (h1 : s.effectiveAddress rn imm < 4096) :
      ExecShape i s ((s.writeReg rd (s.memRead (s.effectiveAddress rn imm).toNat)).accessData
        (s.effectiveAddress rn imm).toNat false)
  | store (rd rn : Reg) (imm : BitVec 8) (hi : i = .str rd rn imm) (h0 : 0 ≤ s.effectiveAddress rn imm)
      (h1 : s.effectiveAddress rn imm < 4096) :
      ExecShape i s ((s.memWrite (s.effectiveAddress rn imm).toNat (s.readReg rd)).accessData
        (s.effectiveAddress rn imm).toNat true)
  | jump (off : BitVec 24) (x : Word) (hi : i = .b off) : ExecShape i s (s.setPc x)
  | exchange (rm : Reg) (x : Word) (m : Mode) (hi : i = .bx rm ∨ i = .cBx rm) :
      ExecShape i s ((s.setPc x).setMode m)

/-- Every instruction with a destination in a 4-bit field either faults or writes its result. -/
theorem execDataProcessing_shape {i : Instr} (op : Word → Word → Word) (rd rn rm : Reg) (s : State)
    (hw : writtenReg i = some rd) (hf : writesFlags i = true) (hr : faultRaised i s = destFault rd) :
    ∃ t, execDataProcessing op rd rn rm s = .next t ∧ ExecShape i s t := by
  by_cases h : rd = 15
  · exact ⟨_, execDataProcessing_of_pc op rn rm s h, .fault _ (hr.trans (destFault_of_pc h))⟩
  · exact ⟨_, execDataProcessing_of_ne op rn rm s h, .result rd _ h hw hf (hr.trans (destFault_of_ne h))⟩

/-- `exec` always answers a next state, of one of the seven shapes. -/
theorem exec_shape (i : Instr) (s : State) : ∃ t, exec i s = .next t ∧ ExecShape i s t := by
  cases i with
  | and rd rn rm => exact execDataProcessing_shape _ rd rn rm s rfl rfl rfl
  | eor rd rn rm => exact execDataProcessing_shape _ rd rn rm s rfl rfl rfl
  | sub rd rn rm => exact execDataProcessing_shape _ rd rn rm s rfl rfl rfl
  | add rd rn rm => exact execDataProcessing_shape _ rd rn rm s rfl rfl rfl
  | orr rd rn rm => exact execDataProcessing_shape _ rd rn rm s rfl rfl rfl
  | cmp rn rm => exact ⟨_, rfl, .flags rn rm _ rfl⟩
  | mov rd imm =>
    by_cases h : rd = 15
    · exact ⟨_, execMov_of_pc imm s h, .fault _ (destFault_of_pc h)⟩
    · exact ⟨_, execMov_of_ne imm s h, .result rd _ h rfl rfl (destFault_of_ne h)⟩
  | ldr rd rn imm =>
    rcases execLdr_cases rd rn imm s with ⟨f, h, e⟩ | ⟨h, e⟩
    · exact ⟨_, e, .fault f h⟩
    · obtain ⟨hd, h0, h1⟩ := ldrFault_eq_none.1 h
      exact ⟨_, e, .load rd rn imm rfl hd h0 h1⟩
  | str rd rn imm =>
    rcases execStr_cases rd rn imm s with ⟨f, h, e⟩ | ⟨h, e⟩
    · exact ⟨_, e, .fault f h⟩
    · obtain ⟨h0, h1⟩ := addressFault_eq_none.1 h
      exact ⟨_, e, .store rd rn imm rfl h0 h1⟩
  | b off => exact ⟨_, rfl, .jump off _ rfl⟩
  | bx rm => exact ⟨_, rfl, .exchange rm _ _ (.inl rfl)⟩
  | cLsl rd rn shamt => exact ⟨_, rfl, .result (lowReg rd) _ (lowReg_ne_pc rd) rfl rfl rfl⟩
  | cAdd rd rn rm => exact ⟨_, rfl, .result (lowReg rd) _ (lowReg_ne_pc rd) rfl rfl rfl⟩
  | cSub rd rn rm => exact ⟨_, rfl, .result (lowReg rd) _ (lowReg_ne_pc rd) rfl rfl rfl⟩
  | cMov rd imm => exact ⟨_, rfl, .result (lowReg rd) _ (lowReg_ne_pc rd) rfl rfl rfl⟩
  | cBx rm => exact ⟨_, rfl, .exchange rm _ _ (.inr rfl)⟩

/-- The shape of the state an instruction answers. -/
theorem ExecShape.of_exec {i : Instr} {s t : State} (h : exec i s = .next t) : ExecShape i s t := by
  obtain ⟨u, e, hu⟩ := exec_shape i s
  rw [e] at h
  cases h
  exact hu

/-- An instruction that raises a fault is no branch. -/
theorem isBranch_of_fault {i : Instr} {s : State} {f : RuntimeFault} (h : faultRaised i s = some f) : isBranch i = false := by
  cases i <;> first | rfl | cases h

/-- An instruction that writes Z and N is no branch. -/
theorem isBranch_of_writesFlags {i : Instr} (h : writesFlags i = true) : isBranch i = false := by
  cases i <;> first | rfl | cases h

end Sys2Proof.Machine
end

