-- ==== Sys2Proof/Laws/Memory.lean ====
section
/-!
SUPPORT. The laws of main memory: reading after a write, and that every write keeps the canonical form.
-/

namespace Sys2Proof.Machine

@[simp] theorem Memory.readByte_nil (a : Nat) : Memory.readByte [] a = unlistedByte := rfl

theorem Memory.readByte_cons (b : Nat) (u : Byte) (m : Memory) (a : Nat) :
    Memory.readByte ((b, u) :: m) a = if a = b then u else Memory.readByte m a := rfl

/-- A byte below every listed address reads as unlisted. -/
theorem Memory.readByte_of_lt {m : Memory} {a : Nat} (h : ∀ c ∈ m, a < c.1) : Memory.readByte m a = unlistedByte := by
  induction m with
  | nil => rfl
  | cons c m ih =>
    obtain ⟨b, u⟩ := c
    have hb : a < b := h (b, u) (by simp)
    rw [Memory.readByte_cons, if_neg (by omega)]
    exact ih (fun c hc => h c (by simp [hc]))

theorem Memory.readByte_cell_of_ne (m : Memory) {a b : Nat} (v : Byte) (h : a ≠ b) :
    Memory.readByte (Memory.cell b v m) a = Memory.readByte m a := by
  unfold Memory.cell
  split
  · rfl
  · rw [Memory.readByte_cons, if_neg h]

/-- A write leaves every other byte alone, in any list of cells. -/
theorem Memory.readByte_writeByte_of_ne (m : Memory) {a b : Nat} (v : Byte) (h : a ≠ b) :
    Memory.readByte (Memory.writeByte m b v) a = Memory.readByte m a := by
  induction m with
  | nil => exact Memory.readByte_cell_of_ne [] v h
  | cons c m ih =>
    obtain ⟨d, u⟩ := c
    unfold Memory.writeByte
    split
    · exact Memory.readByte_cell_of_ne _ v h
    · split
      · next _ hd => rw [Memory.readByte_cell_of_ne _ v h, Memory.readByte_cons, if_neg (by omega)]
      · rw [Memory.readByte_cons, Memory.readByte_cons, ih]

theorem Memory.readByte_cell_self {m : Memory} {a : Nat} (v : Byte) (h : ∀ c ∈ m, a < c.1) :
    Memory.readByte (Memory.cell a v m) a = v := by
  unfold Memory.cell
  split
  · next hv => rw [Memory.readByte_of_lt h, hv]
  · rw [Memory.readByte_cons, if_pos rfl]

/-- The byte written is the byte read, in a canonical memory. -/
theorem Memory.readByte_writeByte_self {m : Memory} (hm : m.Pairwise (fun c d => c.1 < d.1)) (a : Nat) (v : Byte) :
    Memory.readByte (Memory.writeByte m a v) a = v := by
  induction m with
  | nil => exact Memory.readByte_cell_self v (by simp)
  | cons c m ih =>
    obtain ⟨d, u⟩ := c
    obtain ⟨hd, hm⟩ := List.pairwise_cons.1 hm
    unfold Memory.writeByte
    split
    · next hlt =>
      refine Memory.readByte_cell_self v (fun c hc => ?_)
      rcases List.mem_cons.1 hc with rfl | hc
      · exact hlt
      · have := hd c hc
        simp only at this
        omega
    · split
      · next _ hd' => subst hd'; exact Memory.readByte_cell_self v hd
      · next _ hne => rw [Memory.readByte_cons, if_neg hne, ih hm]

theorem Memory.mem_cell {m : Memory} {a : Nat} {v : Byte} {c : Host.Cell} (h : c ∈ Memory.cell a v m) :
    (c = (a, v) ∧ v ≠ unlistedByte) ∨ c ∈ m := by
  unfold Memory.cell at h
  split at h
  · exact .inr h
  · next hv =>
    rcases List.mem_cons.1 h with h | h
    · exact .inl ⟨h, hv⟩
    · exact .inr h

/-- Every cell of a written memory is the new one or an old one. -/
theorem Memory.mem_writeByte {m : Memory} {a : Nat} {v : Byte} {c : Host.Cell} (h : c ∈ Memory.writeByte m a v) :
    (c = (a, v) ∧ v ≠ unlistedByte) ∨ c ∈ m := by
  induction m with
  | nil => exact Memory.mem_cell h
  | cons d m ih =>
    obtain ⟨b, u⟩ := d
    unfold Memory.writeByte at h
    split at h
    · exact Memory.mem_cell h
    · split at h
      · exact (Memory.mem_cell h).imp_right (List.mem_cons_of_mem _)
      · rcases List.mem_cons.1 h with rfl | h
        · exact .inr (by simp)
        · exact (ih h).imp_right (List.mem_cons_of_mem _)

theorem Memory.pairwise_cell {m : Memory} {a : Nat} (v : Byte) (hm : m.Pairwise (fun c d => c.1 < d.1))
    (h : ∀ c ∈ m, a < c.1) : (Memory.cell a v m).Pairwise (fun c d => c.1 < d.1) := by
  unfold Memory.cell
  split
  · exact hm
  · exact List.pairwise_cons.2 ⟨h, hm⟩

theorem Memory.pairwise_writeByte {m : Memory} (hm : m.Pairwise (fun c d => c.1 < d.1)) (a : Nat) (v : Byte) :
    (Memory.writeByte m a v).Pairwise (fun c d => c.1 < d.1) := by
  induction m with
  | nil => exact Memory.pairwise_cell v hm (by simp)
  | cons c m ih =>
    obtain ⟨b, u⟩ := c
    obtain ⟨hb, htail⟩ := List.pairwise_cons.1 hm
    unfold Memory.writeByte
    split
    · next hlt =>
      refine Memory.pairwise_cell v hm (fun c hc => ?_)
      rcases List.mem_cons.1 hc with rfl | hc
      · exact hlt
      · have := hb c hc
        simp only at this
        omega
    · split
      · next _ hab => subst hab; exact Memory.pairwise_cell v htail hb
      · next hlt hne =>
        refine List.pairwise_cons.2 ⟨fun c hc => ?_, ih htail⟩
        rcases Memory.mem_writeByte hc with ⟨rfl, _⟩ | hc
        · simp only
          omega
        · exact hb c hc

/-- Writing a byte of the data space keeps the canonical form. -/
theorem Memory.wf_writeByte {m : Memory} (hm : m.wf) {a : Nat} (ha : a < memBytes) (v : Byte) :
    (Memory.writeByte m a v).wf := by
  refine ⟨Memory.pairwise_writeByte hm.1 a v, fun c hc => ?_⟩
  rcases Memory.mem_writeByte hc with ⟨rfl, hv⟩ | hc
  · exact ⟨hv, ha⟩
  · exact hm.2 c hc

/-- Writing a word of `M` keeps the canonical form. -/
theorem Memory.wf_setWord {m : Memory} (hm : m.wf) {k : Nat} (hk : k < memWords) (v : Word) : (m.setWord k v).wf := by
  have h : ∀ j < 4, 4 * k + j < memBytes := by
    intro j hj
    simp only [memWords, memBytes] at *
    omega
  exact Memory.wf_writeByte (Memory.wf_writeByte (Memory.wf_writeByte (Memory.wf_writeByte hm
    (h 0 (by omega)) _) (h 1 (by omega)) _) (h 2 (by omega)) _) (h 3 (by omega)) _

/-- Writing a word leaves every byte outside it alone. -/
theorem Memory.readByte_setWord_of_outside (m : Memory) {k a : Nat} (v : Word) (h : a / 4 ≠ k) :
    Memory.readByte (m.setWord k v) a = Memory.readByte m a := by
  unfold Memory.setWord
  iterate 4 rw [Memory.readByte_writeByte_of_ne _ _ (by omega)]

end Sys2Proof.Machine
end

