-- ==== Sys2Proof/Laws/PerInstr.lean ====
section
/-!
SUPPORT. Statements made instruction by instruction. `OpcodeRow`: the canonical word of an instruction selects the instruction's own
row of the opcode table (R110, R113), and a compact instruction's word fits 16 bits (R34, R92).
-/

namespace Sys2Proof.Laws.OpcodeRow

/-- The canonical encoding selects the row it was written from. -/
def Statement (i : Instr) : Prop :=
  i.matchesRow (encode i) = true ∧ (i.mode = .compact → (encode i).extractLsb' 16 16 = 0#16)

theorem matchesRow_of_bits {i : Instr} (h : ∀ k, k < 32 → (encode i &&& i.tableMask).getLsbD k = i.tableMatch.getLsbD k) :
    i.matchesRow (encode i) = true :=
  beq_iff_eq.2 (BitVec.eq_of_getLsbD_eq h)

theorem wide_row {i : Instr} (hw : i.mode = .wide) (h : i.matchesRow (encode i) = true) : Statement i :=
  ⟨h, fun hc => by rw [hw] at hc; cases hc⟩

theorem dataRegister_row (base row : Word) (rd rn rm : Reg) (h : base &&& 0x0FE00000#32 = row) :
    encodeDataRegister base rd rn rm &&& 0x0FE00000#32 = row := by
  subst h
  refine BitVec.eq_of_getLsbD_eq fun k hk => ?_
  simp only [encodeDataRegister, placeReg, place]
  interval_cases k <;> simp

theorem and (rd rn rm : Reg) : Statement (.and rd rn rm) :=
  wide_row rfl (beq_iff_eq.2 (dataRegister_row _ _ rd rn rm rfl))
theorem eor (rd rn rm : Reg) : Statement (.eor rd rn rm) :=
  wide_row rfl (beq_iff_eq.2 (dataRegister_row _ _ rd rn rm rfl))
theorem sub (rd rn rm : Reg) : Statement (.sub rd rn rm) :=
  wide_row rfl (beq_iff_eq.2 (dataRegister_row _ _ rd rn rm rfl))
theorem add (rd rn rm : Reg) : Statement (.add rd rn rm) :=
  wide_row rfl (beq_iff_eq.2 (dataRegister_row _ _ rd rn rm rfl))
theorem cmp (rn rm : Reg) : Statement (.cmp rn rm) :=
  wide_row rfl (beq_iff_eq.2 (dataRegister_row _ _ 0 rn rm rfl))
theorem orr (rd rn rm : Reg) : Statement (.orr rd rn rm) :=
  wide_row rfl (beq_iff_eq.2 (dataRegister_row _ _ rd rn rm rfl))

theorem mov (rd : Reg) (imm : BitVec 8) : Statement (.mov rd imm) := by
  refine wide_row rfl (matchesRow_of_bits fun k hk => ?_)
  simp only [encode, placeReg, place, Instr.tableMask, Instr.tableMatch]
  interval_cases k <;> simp

theorem ldr (rd rn : Reg) (imm : BitVec 8) : Statement (.ldr rd rn imm) := by
  refine wide_row rfl (matchesRow_of_bits fun k hk => ?_)
  simp only [encode, encodeLoadStore, placeReg, place, Instr.tableMask, Instr.tableMatch]
  interval_cases k <;> simp

theorem str (rd rn : Reg) (imm : BitVec 8) : Statement (.str rd rn imm) := by
  refine wide_row rfl (matchesRow_of_bits fun k hk => ?_)
  simp only [encode, encodeLoadStore, placeReg, place, Instr.tableMask, Instr.tableMatch]
  interval_cases k <;> simp

theorem b (off : BitVec 24) : Statement (.b off) := by
  refine wide_row rfl (matchesRow_of_bits fun k hk => ?_)
  simp only [encode, place, Instr.tableMask, Instr.tableMatch]
  interval_cases k <;> simp

theorem bx (rm : Reg) : Statement (.bx rm) := by
  refine wide_row rfl (matchesRow_of_bits fun k hk => ?_)
  simp only [encode, placeReg, place, Instr.tableMask, Instr.tableMatch]
  interval_cases k <;> simp

theorem compact_row {i : Instr} (h : ∀ k, k < 32 → (encode i &&& i.tableMask).getLsbD k = i.tableMatch.getLsbD k)
    (hz : ∀ k, k < 16 → ((encode i).extractLsb' 16 16).getLsbD k = (0#16).getLsbD k) : Statement i :=
  ⟨matchesRow_of_bits h, fun _ => BitVec.eq_of_getLsbD_eq hz⟩

theorem cLsl (rd rn : LowReg) (shamt : BitVec 5) : Statement (.cLsl rd rn shamt) := by
  refine compact_row (fun k hk => ?_) (fun k hk => ?_) <;>
    simp only [encode, placeLow, place, Instr.tableMask, Instr.tableMatch] <;> interval_cases k <;> simp

theorem cAdd (rd rn rm : LowReg) : Statement (.cAdd rd rn rm) := by
  refine compact_row (fun k hk => ?_) (fun k hk => ?_) <;>
    simp only [encode, encodeAddSub, placeLow, place, Instr.tableMask, Instr.tableMatch] <;> interval_cases k <;> simp

theorem cSub (rd rn rm : LowReg) : Statement (.cSub rd rn rm) := by
  refine compact_row (fun k hk => ?_) (fun k hk => ?_) <;>
    simp only [encode, encodeAddSub, placeLow, place, Instr.tableMask, Instr.tableMatch] <;> interval_cases k <;> simp

theorem cMov (rd : LowReg) (imm : BitVec 8) : Statement (.cMov rd imm) := by
  refine compact_row (fun k hk => ?_) (fun k hk => ?_) <;>
    simp only [encode, placeLow, place, Instr.tableMask, Instr.tableMatch] <;> interval_cases k <;> simp

theorem cBx (rm : Reg) : Statement (.cBx rm) := by
  refine compact_row (fun k hk => ?_) (fun k hk => ?_) <;>
    simp only [encode, placeReg, place, Instr.tableMask, Instr.tableMatch] <;> interval_cases k <;> simp

end Sys2Proof.Laws.OpcodeRow
end

