-- ==== Sys2Proof/Laws/Step.lean ====
section
/-!
SUPPORT. One inversion lemma for `step`: the state it answers, and why.
-/

namespace Sys2Proof.Machine

/-- What executing a decoder's answer can make of a state. -/
inductive DecodedShape (s : State) : Decoded → State → Prop where
  | unknown : DecodedShape s .unknown s
  | instr (i : Instr) (t : State) (h : ExecShape i s t) : DecodedShape s (.instr i) t

theorem execDecoded_shape (d : Decoded) (s : State) : ∃ t, execDecoded d s = .next t ∧ DecodedShape s d t := by
  cases d with
  | unknown => exact ⟨s, rfl, .unknown⟩
  | instr i =>
    obtain ⟨t, e, h⟩ := exec_shape i s
    exact ⟨t, e, .instr i t h⟩

/-- What a step can make of a state. -/
inductive StepShape (s : State) : State → Prop where
  | stay (h : s.run = .halted) : StepShape s s
  | halt (h : s.run = .running) (hp : s.pcOutOfRange = true) : StepShape s s.halt
  | execute (e : Entry) (u : State) (h : s.run = .running) (hp : s.pcOutOfRange = false) (hf : s.fetchEntry = some e)
      (hx : execDecoded (s.decodeEntry e) s.instructionEvent = .next u)
      (hu : DecodedShape s.instructionEvent (s.decodeEntry e) u) : StepShape s (u.retire (s.decodeEntry e))

/-- The states `step` answers are exactly these shapes. -/
theorem step_shape {s t : State} (h : step s = .next t) : StepShape s t := by
  unfold step at h
  cases hr : s.run with
  | halted =>
    rw [hr] at h
    cases h
    exact .stay hr
  | running =>
    rw [hr] at h
    simp only at h
    cases hp : s.pcOutOfRange with
    | true =>
      rw [hp] at h
      cases h
      exact .halt hr hp
    | false =>
      rw [hp] at h
      cases hf : s.fetchEntry with
      | none => simp [hf] at h
      | some e =>
        obtain ⟨u, hx, hu⟩ := execDecoded_shape (s.decodeEntry e) s.instructionEvent
        simp only [hf, executeEntry, hx, retireOutcome] at h
        cases h
        exact .execute e u hr hp hf hx hu

/-- Retiring changes the registers alone. -/
theorem State.retire_cases (d : Decoded) (s : State) : s.retire d = s ∨ s.retire d = s.advance := by
  unfold State.retire
  split
  · exact .inl rfl
  · exact .inr rfl

end Sys2Proof.Machine
end

