-- ==== Sys2Proof/Machine/ProgramText.lean ====
section
/-!
DEFINITION. The program text format (R112): how lines of `0` and `1` become the entries of a `load`. The loader that reads the
file is outside the hardware (R4, R251); the format is modelled so that programs given in it can be run (log entry 17).
-/

namespace Sys2Proof.Machine

/-- Why a line is skipped with a diagnostic (R112, R251). -/
inductive LineDiagnostic where
  | notBinary
  | badLength
  deriving DecidableEq, Repr

/-- What one line of program text gives. -/
inductive TextLine where
  /-- A blank line or one that begins with `#`. -/
  | ignored
  | entry (e : Entry)
  | skipped (d : LineDiagnostic)
  deriving DecidableEq, Repr

/-- The value of a binary numeral, leftmost character most significant (D27). -/
def binaryValue (acc : Nat) : List Char → Option Nat
  | [] => some acc
  | ch :: rest =>
    if ch = '0' then binaryValue (2 * acc) rest
    else if ch = '1' then binaryValue (2 * acc + 1) rest
    else none

/-- An instruction line after its spaces are stripped (R112). -/
def readInstructionLine (line : List Char) : TextLine :=
  match binaryValue 0 line with
  | none => .skipped .notBinary
  | some v =>
    if line.length = 16 then .entry { word := BitVec.ofNat 32 v, width := .w16 }
    else if line.length = 32 then .entry { word := BitVec.ofNat 32 v, width := .w32 }
    else .skipped .badLength

/-- One line of program text (R112). -/
def readLine (line : List Char) : TextLine :=
  match line.filter (fun ch => ch ≠ ' ') with
  | [] => .ignored
  | ch :: rest => if ch = '#' then .ignored else readInstructionLine (ch :: rest)

/-- The entry of a line that has one. -/
def TextLine.entry? : TextLine → Option Entry
  | .ignored => none
  | .entry e => some e
  | .skipped _ => none

/-- The entries of a program text: all valid lines, in order (R112). -/
def readProgram (lines : List (List Char)) : List Entry := lines.filterMap (fun line => (readLine line).entry?)

end Sys2Proof.Machine
end

