-- ==== Sys2Proof/Tests/Slice0.lean ====
section
/-!
SUPPORT. Our own tests. Expected results come from the vectors of spec/95_test_vectors.md, named by their ids, or from the examples
of the rules; then one witness, or several at the boundaries, for the hypotheses of each obligation that has any.
-/

namespace Sys2Proof.Tests

open Sys2Proof Sys2Proof.Machine

/-! ## Small states -/

/-- A machine in Wide mode about to fetch `w` at address `4 * k`, behind `k` entries that are not executed. -/
def wideAt (k w : Nat) : State :=
  { State.reset with
    store := List.replicate k { word := 0#32, width := .w32 } ++ [{ word := BitVec.ofNat 32 w, width := .w32 }]
    regs := State.reset.regs.set 15 (BitVec.ofNat 32 (4 * k)) }

/-- A machine in Compact mode about to fetch `w` at address 0. -/
def compactAt (w : Nat) : State :=
  { State.reset with mode := .compact, store := [{ word := BitVec.ofNat 32 w, width := .w16 }] }

/-- Set a register. -/
def reg (r : Reg) (v : Nat) (s : State) : State := s.writeReg r (BitVec.ofNat 32 v)

/-- Set a word of main memory. -/
def memory (k v : Nat) (s : State) : State := { s with mem := s.mem.setWord k (BitVec.ofNat 32 v) }

/-- What `f` reads in the state a step answers. -/
def after {α : Type} (s : State) (f : State → α) : Option α :=
  match step s with
  | .next t => some (f t)
  | .fault _ => none
  | .refused _ => none

/-- A register, `Z`, `N`, the program counter and the latch: what the vectors name. -/
def seen (r : Reg) (s : State) : Word × Bool × Bool × Word × BitVec 2 := (s.readReg r, s.z, s.n, s.pc, s.flt)

/-! ## Well-formedness smoke tests: each check refuses an ill-formed term -/

theorem test_wellFormed_refuses_wide_in_compact : (Instr.ldr 1 2 3).wellFormed .compact = false := by decide
theorem test_wellFormed_refuses_compact_in_wide : (Instr.cLsl 1 2 3).wellFormed .wide = false := by decide
theorem test_wellFormed_accepts : (Instr.bx 15).wellFormed .wide = true ∧ (Instr.cBx 15).wellFormed .compact = true := by decide
theorem test_legal_accepts : ({ blockSize := 8, l1iCapacity := 32, l1dCapacity := 16, l2BlockSize := 8, l2Capacity := 32 } : Geometry).legal = true := by decide
theorem test_legal_refuses_zero_block : ({ blockSize := 0, l1iCapacity := 32, l1dCapacity := 32, l2BlockSize := 8, l2Capacity := 32 } : Geometry).legal = false := by decide
theorem test_legal_refuses_block_twelve : ({ blockSize := 12, l1iCapacity := 32, l1dCapacity := 32, l2BlockSize := 8, l2Capacity := 32 } : Geometry).legal = false := by decide
theorem test_legal_refuses_l1i_odd : ({ blockSize := 8, l1iCapacity := 33, l1dCapacity := 32, l2BlockSize := 8, l2Capacity := 32 } : Geometry).legal = false := by decide
theorem test_legal_refuses_l1d_odd : ({ blockSize := 8, l1iCapacity := 32, l1dCapacity := 24, l2BlockSize := 8, l2Capacity := 32 } : Geometry).legal = false := by decide
theorem test_legal_refuses_l2_block : ({ blockSize := 8, l1iCapacity := 32, l1dCapacity := 32, l2BlockSize := 6, l2Capacity := 32 } : Geometry).legal = false := by decide
theorem test_legal_refuses_l2_odd : ({ blockSize := 8, l1iCapacity := 32, l1dCapacity := 32, l2BlockSize := 8, l2Capacity := 48 } : Geometry).legal = false := by decide
theorem test_legal_refuses_small_l1i : ({ blockSize := 8, l1iCapacity := 4, l1dCapacity := 32, l2BlockSize := 8, l2Capacity := 32 } : Geometry).legal = false := by decide
theorem test_legal_refuses_small_l1d : ({ blockSize := 8, l1iCapacity := 32, l1dCapacity := 4, l2BlockSize := 8, l2Capacity := 32 } : Geometry).legal = false := by decide
theorem test_legal_refuses_small_l2 : ({ blockSize := 8, l1iCapacity := 32, l1dCapacity := 32, l2BlockSize := 8, l2Capacity := 4 } : Geometry).legal = false := by decide
theorem test_entry_refuses_oversized : ({ word := 0x12305#32, width := .w16 } : Entry).wf = false := by decide
theorem test_memory_refuses_unsorted : ¬ Memory.wf [(8, 1#8), (4, 1#8)] := by decide
theorem test_memory_refuses_listed_zero : ¬ Memory.wf [(4, 0#8)] := by decide
theorem test_memory_refuses_outside : ¬ Memory.wf [(4096, 1#8)] := by decide
theorem test_reset_wf : State.reset.wf := by decide

/-! ## Decoding: every constructor from a word written out from its format table -/

/-- W-DPR, `cccc 000 op x Rn Rd xxxxxxxx Rm` (R84, R89): V-D-1, V-D-2. -/
theorem test_decode_and : decode .wide 0b1110_000_0000_0_0001_0011_00000000_0010#32 = .instr (.and 3 1 2)
    ∧ decode .wide 0#32 = .instr (.and 0 0 0) := by decide
theorem test_decode_eor : decode .wide 0b1110_000_0001_0_0001_0010_00000000_0011#32 = .instr (.eor 2 1 3) := by decide
/-- V-D-4. -/
theorem test_decode_sub : decode .wide 0b1110_000_0010_0_0001_0010_00000000_0000#32 = .instr (.sub 2 1 0) := by decide
/-- V-D-5. -/
theorem test_decode_add : decode .wide 0b1110_000_0100_0_0000_0001_00000000_0000#32 = .instr (.add 1 0 0) := by decide
/-- V-D-6, V-D-7. -/
theorem test_decode_cmp : decode .wide 0b1110_000_1010_0_0000_0000_00000000_0001#32 = .instr (.cmp 0 1)
    ∧ decode .wide 0xE1500001#32 = .instr (.cmp 0 1) := by decide
/-- V-D-8. -/
theorem test_decode_orr : decode .wide 0b1110_000_1100_0_0110_1000_00000000_0010#32 = .instr (.orr 8 6 2) := by decide
/-- W-DPI, `cccc 001 1101 x xxxx Rd xxxx imm8` (R85): V-D-9, V-D-10, V-DP-18. -/
theorem test_decode_mov : decode .wide 0b1110_001_1101_0_0000_0000_0000_00000001#32 = .instr (.mov 0 1)
    ∧ decode .wide 0x03A0F0FF#32 = .instr (.mov 15 255) ∧ decode .wide 0xE3A03FFF#32 = .instr (.mov 3 255) := by decide
/-- W-LS, `cccc 010 xxxx L Rn Rd xxxx imm8` (R86): V-D-13. -/
theorem test_decode_ldr : decode .wide 0b1110_010_1100_1_0000_0010_0000_00000001#32 = .instr (.ldr 2 0 1) := by decide
/-- V-D-14. -/
theorem test_decode_str : decode .wide 0b1110_010_1100_0_0000_0001_0000_00000001#32 = .instr (.str 1 0 1) := by decide
/-- W-B, `cccc 101 x off24` (R87): V-D-17, V-D-18. -/
theorem test_decode_b : decode .wide 0b1110_101_0_111111111111111111111110#32 = .instr (.b 0xFFFFFE#24)
    ∧ decode .wide 0xEB000000#32 = .instr (.b 0) := by decide
/-- W-BX (R88): V-D-19. -/
theorem test_decode_bx : decode .wide 0b1110_000_1001_0_1111_1111_11110001_0000#32 = .instr (.bx 0)
    ∧ decode .wide 0xE12FFF1F#32 = .instr (.bx 15) := by decide
/-- C-SH, `000 00 shamt5 Rn Rd` (R93): V-D-31, V-D-32. -/
theorem test_decode_cLsl : decode .compact 0b000_00_00100_011_100#32 = .instr (.cLsl 4 3 4)
    ∧ decode .compact 0x07FF#32 = .instr (.cLsl 7 7 31) := by decide
/-- C-AS, `00011 0 sub Rm Rn Rd` (R94): V-D-33. -/
theorem test_decode_cAdd : decode .compact 0b00011_0_0_011_100_101#32 = .instr (.cAdd 5 4 3) := by decide
/-- V-D-34. -/
theorem test_decode_cSub : decode .compact 0b00011_0_1_010_101_110#32 = .instr (.cSub 6 5 2) := by decide
/-- C-MI, `00100 Rd imm8` (R95): V-D-35, V-D-36. -/
theorem test_decode_cMov : decode .compact 0b00100_011_00000101#32 = .instr (.cMov 3 5)
    ∧ decode .compact 0x27FF#32 = .instr (.cMov 7 255) := by decide
/-- C-BX, `010001110 Rm 000` (R96): V-D-37, V-D-38, V-D-39. -/
theorem test_decode_cBx : decode .compact 0b010001110_0111_000#32 = .instr (.cBx 7)
    ∧ decode .compact 0x4770#32 = .instr (.cBx 14) ∧ decode .compact 0x4778#32 = .instr (.cBx 15) := by decide
/-- V-D-11, V-D-12, V-D-15, V-D-20 to V-D-23. -/
theorem test_decode_wide_unknown :
    [0xE1A00000, 0xE2800001, 0xE7900000, 0x012FFF10, 0xE12FFF30, 0xE8000000, 0xEC000000, 0xEE000000, 0xFFFFFFFF].all
      (fun w => decide (decode .wide (BitVec.ofNat 32 w) = .unknown)) = true := by decide
/-- V-D-40 to V-D-46. -/
theorem test_decode_compact_unknown :
    [0x4701, 0x0800, 0x1000, 0x1C00, 0x1E00, 0x2800, 0x3000, 0x3800, 0x4000, 0x6000, 0xE000, 0xFFFF, 0x00012305, 0xE12FFF10].all
      (fun w => decide (decode .compact (BitVec.ofNat 32 w) = .unknown)) = true := by decide
/-- V-D-24: a 16-bit entry seen in Wide mode. -/
theorem test_decode_halfword_in_wide : decode .wide 0x00002305#32 = .instr (.and 2 0 5) := by decide
/-- The canonical encodings of R110, as the words of spec/95_test_vectors.md. -/
theorem test_encode_wide : [encode (.and 3 1 2), encode (.eor 2 1 3), encode (.sub 2 1 0), encode (.add 1 0 0), encode (.cmp 0 1),
      encode (.orr 8 6 2), encode (.mov 4 0), encode (.ldr 2 0 1), encode (.str 1 0 1), encode (.b 0xFFFFFE#24), encode (.bx 3)]
    = [0xE0013002#32, 0xE0212003#32, 0xE0412000#32, 0xE0801000#32, 0xE1400001#32,
      0xE1868002#32, 0xE3A04000#32, 0xE5902001#32, 0xE5801001#32, 0xEAFFFFFE#32, 0xE12FFF13#32] := by decide
theorem test_encode_compact : [encode (.cLsl 4 3 4), encode (.cAdd 5 4 3), encode (.cSub 6 5 2), encode (.cMov 3 5), encode (.cBx 7)]
    = [0x011C#32, 0x18E5#32, 0x1AAE#32, 0x2305#32, 0x4738#32] := by decide
/-- Assembly lines of R110 and its vectors. -/
theorem test_assembly : (Instr.ldr 2 0 1).assembly = "LDR R2,[R0,#1]" ∧ (Instr.cLsl 4 3 4).assembly = "C.LSL R4,R3,#4"
    ∧ (Instr.b 0xFFFFFE#24).assembly = "B -2" := by decide
/-- The host's two names: the row's instruction is read, and it is the first one to run. -/
theorem test_decodeTableWord : decodeTableWord 32 0xE0013002 = some (.and 3 1 2) ∧ decodeTableWord 16 0x4738 = some (.cBx 7)
    ∧ decodeTableWord 16 0x4701 = none := by decide
/-- The same when the table's masks make a compact row 32 bits long (log entry 12). -/
theorem test_decodeTableWord_long : [decodeTableWord 32 0, decodeTableWord 32 0x1800, decodeTableWord 32 0x1A00,
      decodeTableWord 32 0x2000, decodeTableWord 32 0x4700, decodeTableWord 32 0x0A000000]
    = [some (.and 0 0 0), some (.cAdd 0 0 0), some (.cSub 0 0 0), some (.cMov 0 0), some (.cBx 0), some (.b 0)] := by decide
theorem test_withFetchWord_long : after (State.reset.withFetchWord 32 0x2005) (seen 0) = some (5#32, false, false, 2#32, 0#2) := by decide
theorem test_withFetchWord_wide : after (State.reset.withFetchWord 32 0xE3A00001) (seen 0) = some (1#32, false, false, 4#32, 0#2) := by decide
theorem test_withFetchWord_compact : after (State.reset.withFetchWord 16 0x2305) (seen 3) = some (5#32, false, false, 2#32, 0#2) := by decide
/-- R112: blanks stripped, comments and bad lines skipped. -/
theorem test_program_text : readProgram ["# P1".toList, "0010 0011 0000 0101".toList, "".toList, "012".toList, "101".toList]
    = [{ word := 0x2305#32, width := .w16 }] := by decide

/-! ## One step of each instruction -/

/-- V-DP-1. -/
theorem test_and : after (wideAt 0 0xE0013002 |> reg 1 0xF0F0F0F0 |> reg 2 0x0FF00FF0) (seen 3)
    = some (0x00F000F0#32, false, false, 4#32, 0#2) := by decide
/-- V-DP-2. -/
theorem test_and_zero : after (wideAt 0 0xE0013002 |> reg 1 0xAAAAAAAA |> reg 2 0x55555555) (seen 3)
    = some (0#32, true, false, 4#32, 0#2) := by decide
/-- V-DP-3. -/
theorem test_eor_self : after (wideAt 0 0xE0200000 |> reg 0 0x12345678) (seen 0) = some (0#32, true, false, 4#32, 0#2) := by decide
/-- V-DP-4. -/
theorem test_eor : after (wideAt 0 0xE0212003 |> reg 1 0xFFFF0000 |> reg 3 0x0000FFFF) (seen 2)
    = some (0xFFFFFFFF#32, false, true, 4#32, 0#2) := by decide
/-- V-DP-6. -/
theorem test_sub_borrow : after (wideAt 0 0xE0412000 |> reg 0 1) (seen 2) = some (0xFFFFFFFF#32, false, true, 4#32, 0#2) := by decide
/-- V-DP-7. -/
theorem test_sub_wraps : after (wideAt 0 0xE0412000 |> reg 1 0x80000000 |> reg 0 1) (fun t => (seen 2 t, t.c, t.v))
    = some ((0x7FFFFFFF#32, false, false, 4#32, 0#2), false, false) := by decide
/-- V-DP-19: register 15 reads its own address. -/
theorem test_add_pc : after (wideAt 2 0xE08F000F) (seen 0) = some (16#32, false, false, 12#32, 0#2) := by decide
/-- V-DP-20. -/
theorem test_add_pc_write : after { wideAt 1 0xE080F000 with regs := (wideAt 1 0).regs.set 0 3#32, n := true } (seen 0)
    = some (3#32, false, true, 8#32, 0b10#2) := by decide
/-- V-DP-12. -/
theorem test_cmp_equal : after { (wideAt 0 0xE1400001 |> reg 0 7 |> reg 1 7) with n := true } (seen 0)
    = some (7#32, true, false, 4#32, 0#2) := by decide
/-- V-DP-13. -/
theorem test_cmp_rd_fifteen : after (wideAt 0 0xE140F001 |> reg 0 0x80000000 |> reg 1 1) (seen 0)
    = some (0x80000000#32, false, false, 4#32, 0#2) := by decide
/-- V-DP-14. -/
theorem test_orr : after (wideAt 0 0xE1868002 |> reg 6 0x52 |> reg 2 3) (seen 8) = some (0x53#32, false, false, 4#32, 0#2) := by decide
/-- V-DP-15. -/
theorem test_orr_self : after (wideAt 0 0xE1811001 |> reg 1 0x80000000) (seen 1)
    = some (0x80000000#32, false, true, 4#32, 0#2) := by decide
/-- V-DP-17. -/
theorem test_mov_zero : after { (wideAt 0 0xE3A04000 |> reg 4 9) with n := true } (seen 4)
    = some (0#32, true, false, 4#32, 0#2) := by decide
/-- V-DP-21. -/
theorem test_mov_pc_write : after (wideAt 0 0xE3A0F001) (seen 15) = some (4#32, false, false, 4#32, 0b10#2) := by decide
/-- V-LS-5: the last word. -/
theorem test_ldr_last_word : after (wideAt 0 0xE59010FF |> reg 0 3072 |> memory 1023 0xCAFE) (seen 1)
    = some (0xCAFE#32, false, false, 4#32, 0#2) := by decide
/-- V-LS-9: PC_WRITE only, and no data-cache event. -/
theorem test_ldr_fault_order : after (wideAt 0 0xE590F000 |> reg 0 0x1000) (fun t => (seen 15 t, t.cache.dMiss))
    = some ((4#32, false, false, 4#32, 0b10#2), 0) := by decide
/-- V-LS-1: the word, its access, and the line it installs. -/
theorem test_str : after (wideAt 0 0xE5801001 |> reg 0 16 |> reg 1 7)
      (fun t => (t.mem.word 5, t.cache.dMiss, t.cache.writebacks, lineAt t.cache.l1d 2))
    = some (7#32, 1, 0, { tag := 0, dirty := true, valid := true }) := by decide
/-- V-LS-6: a base of -4. -/
theorem test_str_fault : after (wideAt 0 0xE5821000 |> reg 2 0xFFFFFFFC) (fun t => (t.mem, t.flt, t.cache.dMiss, t.pc))
    = some ([], 0b01#2, 0, 4#32) := by decide
/-- V-B-4. -/
theorem test_b : after (wideAt 2 0xEA000003) (seen 15) = some (28#32, false, false, 28#32, 0#2) := by decide
/-- V-B-7: the most negative offset. -/
theorem test_b_back : after (wideAt 0 0xEA800000) (fun t => t.pc) = some 0xFE000008#32 := by decide
/-- V-BX-1, the source's own example. -/
theorem test_bx_to_compact : after (wideAt 0 0xE12FFF10 |> reg 0 9) (fun t => (t.pc, t.mode)) = some (8#32, .compact) := by decide
/-- V-BX-7: bit 1 is kept. -/
theorem test_bx_keeps_bit_one : after (wideAt 0 0xE12FFF12 |> reg 2 6) (fun t => (t.pc, t.mode)) = some (6#32, .wide) := by decide
/-- V-C16-2: bits shifted out are lost. -/
theorem test_cLsl : after (compactAt 0x011C |> reg 3 0x08000001) (seen 4) = some (0x80000010#32, false, true, 2#32, 0#2) := by decide
/-- V-C16-4. -/
theorem test_cLsl_zero : after (compactAt 0x07C8 |> reg 1 2) (seen 0) = some (0#32, true, false, 2#32, 0#2) := by decide
/-- V-C16-6. -/
theorem test_cAdd : after (compactAt 0x18E5 |> reg 4 0x50 |> reg 3 5) (seen 5) = some (0x55#32, false, false, 2#32, 0#2) := by decide
/-- V-C16-7. -/
theorem test_cSub : after (compactAt 0x1AAE |> reg 5 0x55 |> reg 2 3) (seen 6) = some (0x52#32, false, false, 2#32, 0#2) := by decide
/-- V-C16-8. -/
theorem test_cSub_self : after (compactAt 0x1A00 |> reg 0 77) (seen 0) = some (0#32, true, false, 2#32, 0#2) := by decide
/-- V-C16-9. -/
theorem test_cMov : after (compactAt 0x2305) (seen 3) = some (5#32, false, false, 2#32, 0#2) := by decide
/-- V-C16-10. -/
theorem test_cMov_zero : after (compactAt 0x2000 |> reg 0 9) (seen 0) = some (0#32, true, false, 2#32, 0#2) := by decide
/-- V-BX-5. -/
theorem test_cBx_to_wide : after (compactAt 0x4738 |> reg 7 32) (fun t => (t.pc, t.mode)) = some (32#32, .wide) := by decide
/-- V-BX-6. -/
theorem test_cBx_stays : after (compactAt 0x4770 |> reg 14 0x15) (fun t => (t.pc, t.mode)) = some (0x14#32, .compact) := by decide
/-- V-U-1. -/
theorem test_unknown_wide : after (wideAt 0 0xE1A00000 |> reg 4 9) (seen 4) = some (9#32, false, false, 4#32, 0#2) := by decide
/-- V-U-4: a 32-bit entry in Compact mode. -/
theorem test_unknown_compact : after { (wideAt 2 0xE12FFF10 |> reg 0 1) with mode := .compact } (fun t => (t.pc, t.mode))
    = some (10#32, .compact) := by decide
/-- R221: an empty store halts at once (S3 with `N = 0`). -/
theorem test_halt_empty : after State.reset (fun t => (t.run, t.pc, t.cache.iMiss)) = some (.halted, 0#32, 0) := by decide
/-- The record of a step: V-DP-19, registers before the advance (R237). -/
theorem test_trace : ((wideAt 2 0xE08F000F).traceRecord.map (fun r => (r.pcFetch, r.decoded, r.regs[0], r.regs[15])))
    = some (8, .instr (.add 0 15 15), 16#32, 8#32) := by decide

/-! ## The cache hierarchy -/

/-- A row of counters: `iMiss`, `dMiss`, `l2Miss`, `writebacks`. -/
def counters (h : Hierarchy) : Nat × Nat × Nat × Nat := (h.iMiss, h.dMiss, h.l2Miss, h.writebacks)

/-- V-C-1. -/
theorem test_cache_instruction_side :
    counters ([0, 4, 12, 16, 64, 0, 100, 36].foldl (fun h a => h.accessInstruction a)
      (Hierarchy.cold { blockSize := 16, l1iCapacity := 64, l1dCapacity := 64, l2BlockSize := 32, l2Capacity := 128 }))
    = (6, 0, 4, 0) := by decide
/-- V-C-2. -/
theorem test_cache_data_side :
    (let h := [(0, false), (0, true), (8, false), (0, false), (8, true), (16, true), (3, false)].foldl
        (fun (h : Hierarchy) (a : Nat × Bool) => h.accessData a.1 a.2)
        (Hierarchy.cold { blockSize := 4, l1iCapacity := 8, l1dCapacity := 8, l2BlockSize := 4, l2Capacity := 16 });
      (counters h, h.twiceCost, (lineAt h.l1d 1).valid))
    = ((0, 6, 4, 3), 26, false) := by decide
/-- V-C-3. -/
theorem test_cost : ({ Hierarchy.cold Config.geometry with iMiss := 3, l2Miss := 3 } : Hierarchy).cost = 9 / 2 := by
  norm_num [Hierarchy.cost, Hierarchy.cold]

/-! ## The host's calls -/

/-- A legal geometry is configured, an illegal one refused (R250). -/
def accepted {α : Type} : Except HostRefusal α → Option HostRefusal
  | .ok _ => none
  | .error r => some r

/-- A session before its first step, and the same after it. -/
def fresh : Session := Session.fresh Config.geometry []
def begun : Session := { fresh with started := true }

theorem test_configure : accepted (configure Config.geometry) = none
    ∧ accepted (configure { Config.geometry with blockSize := 12 }) = some .illegalGeometry := by decide
theorem test_reconfigure_refuses_a_run_in_progress : accepted (begun.reconfigure Config.geometry) = some .runInProgress := by decide
theorem test_reconfigure_after_a_halt : accepted (fresh.advance.reconfigure Config.geometry) = none := by decide
theorem test_load_accepts : accepted (fresh.load [0xFFFFFFFF, 0xFFFF] [32, 16]) = none := by decide
theorem test_load_refuses_lengths : accepted (fresh.load [1] []) = some .lengthMismatch := by decide
theorem test_load_refuses_width : accepted (fresh.load [1] [8]) = some .badWidth := by decide
theorem test_load_refuses_word : accepted (fresh.load [0x10000] [16]) = some .oversizedWord := by decide
theorem test_load_refuses_begun : accepted (begun.load [] []) = some .runStarted := by decide
theorem test_preload_refuses_pc : accepted (fresh.preloadReg 15 0#32) = some .notPreloadable := by decide
theorem test_preload_last_word : accepted (fresh.preloadWord 1023 1#32) = none
    ∧ accepted (fresh.preloadWord 1024 1#32) = some .notPreloadable := by decide
theorem test_readOut_only_after_a_run : (fresh.readOut).isNone = true ∧ ((fresh.advance).readOut).isSome = true := by decide

/-! ## Witnesses: the hypotheses of the obligations are met -/

/-- A hierarchy of one-slot data cache whose line is valid and dirty. -/
def dirtyCache : Hierarchy := (Hierarchy.cold Config.geometry).accessData 0 true

/-- A state that differs from another in its caches, geometry included. -/
def otherCaches (s : State) : State :=
  { s with cache := Hierarchy.cold { blockSize := 16, l1iCapacity := 64, l1dCapacity := 64, l2BlockSize := 32, l2Capacity := 128 } }

/-- A halted machine in the invariant. -/
def halted : State := { State.reset with run := .halted }

/-- The one entry of `wideAt 0 w` and of `compactAt w`. -/
def wideEntry (w : Nat) : Entry := { word := BitVec.ofNat 32 w, width := .w32 }
def compactEntry (w : Nat) : Entry := { word := BitVec.ofNat 32 w, width := .w16 }

theorem fetches_wideAt (w : Nat) : (wideAt 0 w).fetches (wideEntry w) :=
  ⟨rfl, (by decide : (0 : Int) ≤ sint 0#32), (by decide : (0 : Int) < 4), 0, rfl, rfl⟩

theorem fetches_compactAt (w : Nat) : (compactAt w).fetches (compactEntry w) :=
  ⟨rfl, (by decide : (0 : Int) ≤ sint 0#32), (by decide : (0 : Int) < 2), 0, rfl, rfl⟩

/-- ResetMeetsTheInvariant: a legal geometry and a program `load` accepts, with entries of both widths. -/
theorem witness_resetMeetsTheInvariant : Config.geometry.legal = true ∧ programWf [wideEntry 0xE3A00001, compactEntry 0xFFFF] := by
  decide
/-- StepKeepsTheInvariant, StepAlwaysAnswersNext: an executing, a halting and a halted state. -/
theorem witness_stepKeepsTheInvariant_executing : ∃ t, (wideAt 0 0xE5801001).wf ∧ step (wideAt 0 0xE5801001) = .next t :=
  ⟨_, by decide, rfl⟩
theorem witness_stepKeepsTheInvariant_halting : ∃ t, State.reset.wf ∧ step State.reset = .next t := ⟨_, by decide, rfl⟩
theorem witness_stepKeepsTheInvariant_halted : ∃ t, halted.wf ∧ step halted = .next t := ⟨_, by decide, rfl⟩
/-- HostCallsGiveMachinesInTheInvariant: each of its calls is accepted from a machine in the invariant, and a configure refused. -/
theorem witness_hostCalls_configure : ∃ h, configure Config.geometry = .ok h := ⟨_, rfl⟩
theorem witness_hostCalls_reconfigure_refused : begun.started = true ∧ begun.machine.run = .running := by decide
theorem witness_hostCalls_reconfigure_before : fresh.machine.wf ∧ fresh.started = false ∧ Config.geometry.legal = true
    ∧ ∃ h, fresh.reconfigure Config.geometry = .ok h := ⟨by decide, rfl, by decide, _, rfl⟩
theorem witness_hostCalls_reconfigure_after : fresh.advance.machine.wf ∧ fresh.advance.machine.run = .halted
    ∧ fresh.advance.started = true ∧ ∃ h, fresh.advance.reconfigure Config.geometry = .ok h := ⟨by decide, rfl, rfl, _, rfl⟩
theorem witness_hostCalls_load : fresh.machine.wf ∧ fresh.machine.run = .running ∧ ∃ h, fresh.load [0xE3A00001] [32] = .ok h :=
  ⟨by decide, rfl, _, rfl⟩
theorem witness_hostCalls_preloadReg : fresh.machine.wf ∧ fresh.machine.run = .running ∧ ∃ h, fresh.preloadReg 14 7#32 = .ok h :=
  ⟨by decide, rfl, _, rfl⟩
theorem witness_hostCalls_preloadWord :
    fresh.machine.wf ∧ fresh.machine.run = .running ∧ ∃ h, fresh.preloadWord 1023 7#32 = .ok h := ⟨by decide, rfl, _, rfl⟩
/-- StepRunsTheDecodedInstruction: a branch, another instruction and an UNKNOWN word, in either mode. -/
theorem witness_stepRuns_wide : (wideAt 0 0xE0013002).fetches (wideEntry 0xE0013002)
    ∧ decode (wideAt 0 0xE0013002).mode (wideEntry 0xE0013002).word = .instr (.and 3 1 2) := ⟨fetches_wideAt _, by decide⟩
theorem witness_stepRuns_branch : (wideAt 0 0xEAFFFFFE).fetches (wideEntry 0xEAFFFFFE)
    ∧ decode (wideAt 0 0xEAFFFFFE).mode (wideEntry 0xEAFFFFFE).word = .instr (.b 0xFFFFFE#24) := ⟨fetches_wideAt _, by decide⟩
theorem witness_stepRuns_compact : (compactAt 0x2305).fetches (compactEntry 0x2305)
    ∧ decode (compactAt 0x2305).mode (compactEntry 0x2305).word = .instr (.cMov 3 5) := ⟨fetches_compactAt _, by decide⟩
/-- UnknownWordIsANoOp, and the UNKNOWN clauses of StepRunsTheDecodedInstruction and TraceRecordsTheExecutedInstruction. -/
theorem witness_unknown_wide : (wideAt 0 0xE1A00000).fetches (wideEntry 0xE1A00000)
    ∧ decode (wideAt 0 0xE1A00000).mode (wideEntry 0xE1A00000).word = .unknown := ⟨fetches_wideAt _, by decide⟩
theorem witness_unknown_compact : (compactAt 0xFFFF).fetches (compactEntry 0xFFFF)
    ∧ decode (compactAt 0xFFFF).mode (compactEntry 0xFFFF).word = .unknown := ⟨fetches_compactAt _, by decide⟩
/-- HaltCheckStopsOutsideTheProgram, RunEndsOnlyAtTheHaltCheck: just past the end, and just below 0. -/
theorem witness_halt_past_the_end : (reg 15 4 (wideAt 0 0)).run = .running
    ∧ sint ((reg 15 4 (wideAt 0 0)).readReg 15) ≥ totalBytes (reg 15 4 (wideAt 0 0)).store
    ∧ ∃ t, step (reg 15 4 (wideAt 0 0)) = .next t := ⟨rfl, by decide, _, rfl⟩
theorem witness_halt_below_zero : (reg 15 0xFFFFFFFF (wideAt 0 0)).run = .running
    ∧ sint ((reg 15 0xFFFFFFFF (wideAt 0 0)).readReg 15) < 0 ∧ ∃ t, step (reg 15 0xFFFFFFFF (wideAt 0 0)) = .next t :=
  ⟨rfl, by decide, _, rfl⟩
/-- HaltedMachineStaysAsItIs. -/
theorem witness_haltedMachineStaysAsItIs : halted.run = .halted := rfl
/-- ResolveFindsTheOneCoveringEntry: the first byte, the last byte, and the first byte outside. -/
theorem witness_resolve_boundaries : 0 < totalBytes [compactEntry 1, wideEntry 2] ∧ 5 < totalBytes [compactEntry 1, wideEntry 2]
    ∧ totalBytes [compactEntry 1, wideEntry 2] ≤ 6 := by decide
/-- WideStoreResolvesByDivision. -/
theorem witness_wideStoreResolvesByDivision :
    (∀ e ∈ [wideEntry 1, wideEntry 2], e.width = .w32) ∧ 7 < totalBytes [wideEntry 1, wideEntry 2] := by decide
/-- OrrOfRegisterFifteenCopiesOwnAddress: `ORR R0,R15,R15`. -/
theorem witness_orrOfRegisterFifteenCopiesOwnAddress : (wideAt 0 0xE18F000F).fetches (wideEntry 0xE18F000F) ∧ (0 : Reg) ≠ 15
    ∧ decode (wideAt 0 0xE18F000F).mode (wideEntry 0xE18F000F).word = .instr (.orr 0 15 15) :=
  ⟨fetches_wideAt _, by decide, by decide⟩
/-- DecoderFollowsTheOpcodeTable: a decoded word, a word that selects a row, and a word that selects none. -/
theorem witness_decoderFollows : decode .wide 0xE0013002#32 = .instr (.and 3 1 2)
    ∧ ((Instr.cBx 0).mode = .compact ∧ 0x4778#32 &&& (Instr.cBx 0).tableMask = (Instr.cBx 0).tableMatch)
    ∧ decode .compact 0xFFFF#32 = .unknown := by decide
/-- IgnoredBitsChangeNothing. -/
theorem witness_ignoredBitsChangeNothing : decode .wide 0xE1400001#32 = .instr (.cmp 0 1) := by decide
/-- ModeAloneSelectsTheDecoder, at the bound. -/
theorem witness_modeAlone : uint 0xFFFF#32 < 2 ^ 16 ∧ 2 ^ 16 ≤ uint 0x10000#32 := by decide
/-- The result statements: a destination of 14 and one of 15. -/
theorem witness_destinations : (14 : Reg) ≠ 15 ∧ (15 : Reg) = 15 := by decide
/-- LdrLoadsTheWordAtItsEffectiveAddress, StrStoresTheWordAtItsEffectiveAddress: effective addresses 0 and 4095 in range. -/
theorem witness_address_first : sint ((reg 2 0xFFFFFFFC State.reset).readReg 2) + 4 * ((1#8).toNat : Int) = 0 := by decide
theorem witness_address_last : sint ((reg 2 4095 State.reset).readReg 2) + 4 * ((0#8).toNat : Int) = 4095 := by decide
/-- The same out of range: -1 and 4096. -/
theorem witness_address_below : sint ((reg 2 0xFFFFFFFF State.reset).readReg 2) + 4 * ((0#8).toNat : Int) < 0 := by decide
theorem witness_address_above : 4096 ≤ sint ((reg 2 3076 State.reset).readReg 2) + 4 * ((255#8).toNat : Int) := by decide
/-- The advance clause of the statement about `and`. -/
theorem witness_advances_and : ∃ t, (wideAt 0 0xE0013002).fetches (wideEntry 0xE0013002) ∧ decode (wideAt 0 0xE0013002).mode (wideEntry 0xE0013002).word = .instr (.and 3 1 2)
    ∧ exec (.and 3 1 2) (wideAt 0 0xE0013002).instructionEvent = .next t := ⟨_, fetches_wideAt _, by decide, rfl⟩
/-- The advance clause of the statement about `eor`. -/
theorem witness_advances_eor : ∃ t, (wideAt 0 0xE0212003).fetches (wideEntry 0xE0212003) ∧ decode (wideAt 0 0xE0212003).mode (wideEntry 0xE0212003).word = .instr (.eor 2 1 3)
    ∧ exec (.eor 2 1 3) (wideAt 0 0xE0212003).instructionEvent = .next t := ⟨_, fetches_wideAt _, by decide, rfl⟩
/-- The advance clause of the statement about `sub`. -/
theorem witness_advances_sub : ∃ t, (wideAt 0 0xE0412000).fetches (wideEntry 0xE0412000) ∧ decode (wideAt 0 0xE0412000).mode (wideEntry 0xE0412000).word = .instr (.sub 2 1 0)
    ∧ exec (.sub 2 1 0) (wideAt 0 0xE0412000).instructionEvent = .next t := ⟨_, fetches_wideAt _, by decide, rfl⟩
/-- The advance clause of the statement about `add`. -/
theorem witness_advances_add : ∃ t, (wideAt 0 0xE0801000).fetches (wideEntry 0xE0801000) ∧ decode (wideAt 0 0xE0801000).mode (wideEntry 0xE0801000).word = .instr (.add 1 0 0)
    ∧ exec (.add 1 0 0) (wideAt 0 0xE0801000).instructionEvent = .next t := ⟨_, fetches_wideAt _, by decide, rfl⟩
/-- The advance clause of the statement about `orr`. -/
theorem witness_advances_orr : ∃ t, (wideAt 0 0xE1868002).fetches (wideEntry 0xE1868002) ∧ decode (wideAt 0 0xE1868002).mode (wideEntry 0xE1868002).word = .instr (.orr 8 6 2)
    ∧ exec (.orr 8 6 2) (wideAt 0 0xE1868002).instructionEvent = .next t := ⟨_, fetches_wideAt _, by decide, rfl⟩
/-- The advance clause of the statement about `cmp`. -/
theorem witness_advances_cmp : ∃ t, (wideAt 0 0xE1400001).fetches (wideEntry 0xE1400001) ∧ decode (wideAt 0 0xE1400001).mode (wideEntry 0xE1400001).word = .instr (.cmp 0 1)
    ∧ exec (.cmp 0 1) (wideAt 0 0xE1400001).instructionEvent = .next t := ⟨_, fetches_wideAt _, by decide, rfl⟩
/-- The advance clause of the statement about `mov`. -/
theorem witness_advances_mov : ∃ t, (wideAt 0 0xE3A00001).fetches (wideEntry 0xE3A00001) ∧ decode (wideAt 0 0xE3A00001).mode (wideEntry 0xE3A00001).word = .instr (.mov 0 1)
    ∧ exec (.mov 0 1) (wideAt 0 0xE3A00001).instructionEvent = .next t := ⟨_, fetches_wideAt _, by decide, rfl⟩
/-- The advance clause of the statement about `ldr`. -/
theorem witness_advances_ldr : ∃ t, (wideAt 0 0xE5902001).fetches (wideEntry 0xE5902001) ∧ decode (wideAt 0 0xE5902001).mode (wideEntry 0xE5902001).word = .instr (.ldr 2 0 1)
    ∧ exec (.ldr 2 0 1) (wideAt 0 0xE5902001).instructionEvent = .next t := ⟨_, fetches_wideAt _, by decide, rfl⟩
/-- The advance clause of the statement about `str`. -/
theorem witness_advances_str : ∃ t, (wideAt 0 0xE5801001).fetches (wideEntry 0xE5801001) ∧ decode (wideAt 0 0xE5801001).mode (wideEntry 0xE5801001).word = .instr (.str 1 0 1)
    ∧ exec (.str 1 0 1) (wideAt 0 0xE5801001).instructionEvent = .next t := ⟨_, fetches_wideAt _, by decide, rfl⟩
/-- The advance clause of the statement about `b`. -/
theorem witness_sets_b : ∃ t, (wideAt 0 0xEA000000).fetches (wideEntry 0xEA000000) ∧ decode (wideAt 0 0xEA000000).mode (wideEntry 0xEA000000).word = .instr (.b 0)
    ∧ exec (.b 0) (wideAt 0 0xEA000000).instructionEvent = .next t := ⟨_, fetches_wideAt _, by decide, rfl⟩
/-- The advance clause of the statement about `bx`. -/
theorem witness_sets_bx : ∃ t, (wideAt 0 0xE12FFF10).fetches (wideEntry 0xE12FFF10) ∧ decode (wideAt 0 0xE12FFF10).mode (wideEntry 0xE12FFF10).word = .instr (.bx 0)
    ∧ exec (.bx 0) (wideAt 0 0xE12FFF10).instructionEvent = .next t := ⟨_, fetches_wideAt _, by decide, rfl⟩
/-- The advance clause of the statement about `cLsl`. -/
theorem witness_advances_cLsl : ∃ t, (compactAt 0x011C).fetches (compactEntry 0x011C) ∧ decode (compactAt 0x011C).mode (compactEntry 0x011C).word = .instr (.cLsl 4 3 4)
    ∧ exec (.cLsl 4 3 4) (compactAt 0x011C).instructionEvent = .next t := ⟨_, fetches_compactAt _, by decide, rfl⟩
/-- The advance clause of the statement about `cAdd`. -/
theorem witness_advances_cAdd : ∃ t, (compactAt 0x18E5).fetches (compactEntry 0x18E5) ∧ decode (compactAt 0x18E5).mode (compactEntry 0x18E5).word = .instr (.cAdd 5 4 3)
    ∧ exec (.cAdd 5 4 3) (compactAt 0x18E5).instructionEvent = .next t := ⟨_, fetches_compactAt _, by decide, rfl⟩
/-- The advance clause of the statement about `cSub`. -/
theorem witness_advances_cSub : ∃ t, (compactAt 0x1AAE).fetches (compactEntry 0x1AAE) ∧ decode (compactAt 0x1AAE).mode (compactEntry 0x1AAE).word = .instr (.cSub 6 5 2)
    ∧ exec (.cSub 6 5 2) (compactAt 0x1AAE).instructionEvent = .next t := ⟨_, fetches_compactAt _, by decide, rfl⟩
/-- The advance clause of the statement about `cMov`. -/
theorem witness_advances_cMov : ∃ t, (compactAt 0x2305).fetches (compactEntry 0x2305) ∧ decode (compactAt 0x2305).mode (compactEntry 0x2305).word = .instr (.cMov 3 5)
    ∧ exec (.cMov 3 5) (compactAt 0x2305).instructionEvent = .next t := ⟨_, fetches_compactAt _, by decide, rfl⟩
/-- The advance clause of the statement about `cBx`. -/
theorem witness_sets_cBx : ∃ t, (compactAt 0x4738).fetches (compactEntry 0x4738) ∧ decode (compactAt 0x4738).mode (compactEntry 0x4738).word = .instr (.cBx 7)
    ∧ exec (.cBx 7) (compactAt 0x4738).instructionEvent = .next t := ⟨_, fetches_compactAt _, by decide, rfl⟩
/-- DataFormsFrame: another register, register 15 itself, and a form whose destination is not 15. -/
theorem witness_dataFormsFrame : ∃ t, isDataForm (.add 1 0 0) = true ∧ exec (.add 1 0 0) State.reset = .next t
    ∧ writtenReg (.add 1 0 0) ≠ some 2 ∧ writtenReg (.add 1 0 0) ≠ some 15 := ⟨_, by decide, rfl, by decide, by decide⟩
theorem witness_dataFormsFrame_fault : ∃ t, isDataForm (.add 15 0 0) = true ∧ exec (.add 15 0 0) State.reset = .next t :=
  ⟨_, by decide, rfl⟩
/-- LoadFrame, StoreFrame: a load and a store that complete, and a store that faults. -/
theorem witness_loadFrame : ∃ t, exec (.ldr 1 0 0) State.reset = .next t ∧ faultRaised (.ldr 1 0 0) State.reset = none :=
  ⟨_, rfl, by decide⟩
theorem witness_storeFrame : ∃ t, exec (.str 1 0 1) State.reset = .next t ∧ faultRaised (.str 1 0 1) State.reset = none
    ∧ 3 < 4 * ((State.reset.effectiveAddress 0 1).toNat / 4) ∧ 4 * ((State.reset.effectiveAddress 0 1).toNat / 4) + 4 ≤ 8 :=
  ⟨_, rfl, by decide, by decide, by decide⟩
theorem witness_storeFrame_fault : ∃ t, exec (.str 1 0 0) (reg 0 4096 State.reset) = .next t
    ∧ faultRaised (.str 1 0 0) (reg 0 4096 State.reset) ≠ none := ⟨_, rfl, by decide⟩
/-- BranchFrame: B, whose mode stays, and BX. -/
theorem witness_branchFrame : ∃ t, isBranch (.b 0) = true ∧ isBranchExchange (.b 0) = false ∧ exec (.b 0) State.reset = .next t :=
  ⟨_, by decide, by decide, rfl⟩
theorem witness_branchFrame_exchange : ∃ t, isBranch (.cBx 7) = true ∧ exec (.cBx 7) State.reset = .next t := ⟨_, by decide, rfl⟩
/-- FaultingInstructionIsAbandoned, FaultsAreRaisedExactlyWhenStated: each cause at its boundary, and no fault. -/
theorem witness_fault_memRange : faultRaised (.ldr 1 0 0) (reg 0 4096 State.reset) = some (.memRange 4096) := by decide
theorem witness_fault_memRange_below : faultRaised (.str 1 0 0) (reg 0 0xFFFFFFFF State.reset) = some (.memRange (-1)) := by decide
theorem witness_fault_pcWrite : faultRaised (.ldr 15 0 0) (reg 0 4096 State.reset) = some (.pcWrite 15) := by decide
theorem witness_fault_none : faultRaised (.str 15 0 0) (reg 0 4095 State.reset) = none := by decide
theorem witness_fault_step : (wideAt 0 0xE3A0F001).fetches (wideEntry 0xE3A0F001)
    ∧ decode (wideAt 0 0xE3A0F001).mode (wideEntry 0xE3A0F001).word = .instr (.mov 15 1)
    ∧ faultRaised (.mov 15 1) (wideAt 0 0xE3A0F001) = some (.pcWrite 15) := ⟨fetches_wideAt _, by decide, by decide⟩
/-- FaultLatchIsSticky, StepNeverChangesStoreGeometryCarryOrOverflow, CostIsNonNegativeAndMonotone, CountersGrowByTheStatedAmounts:
a step of a machine whose latch is set. -/
theorem witness_step_with_latch : ∃ t, step { wideAt 0 0xE590F000 with flt := 0b01#2 } = .next t ∧ t.flt = 0b11#2 := ⟨_, rfl, by decide⟩
theorem witness_counters_halting : ∃ t, step State.reset = .next t ∧ t.run = .halted := ⟨_, rfl, rfl⟩
/-- ModeChangesOnlyByBranchExchange. -/
theorem witness_mode_changes : ∃ t, step (reg 0 9 (wideAt 0 0xE12FFF10)) = .next t ∧ t.mode ≠ (reg 0 9 (wideAt 0 0xE12FFF10)).mode :=
  ⟨_, rfl, by decide⟩
/-- OnlyBranchesLeaveTheSequence: an UNKNOWN word, and an instruction that is no branch. -/
theorem witness_sequence_unknown : (wideAt 0 0xE1A00000).fetches (wideEntry 0xE1A00000)
    ∧ ∀ i, decode (wideAt 0 0xE1A00000).mode (wideEntry 0xE1A00000).word = .instr i → isBranch i = false :=
  ⟨fetches_wideAt _, fun _ h => by rw [show decode (wideAt 0 0xE1A00000).mode (wideEntry 0xE1A00000).word = .unknown by decide] at h; cases h⟩
theorem witness_sequence_instruction : (wideAt 0 0xE0013002).fetches (wideEntry 0xE0013002)
    ∧ ∀ i, decode (wideAt 0 0xE0013002).mode (wideEntry 0xE0013002).word = .instr i → isBranch i = false :=
  ⟨fetches_wideAt _, fun _ h => by
    rw [show decode (wideAt 0 0xE0013002).mode (wideEntry 0xE0013002).word = .instr (.and 3 1 2) by decide] at h; cases h; rfl⟩
/-- MemoryChangesOnlyByAnInRangeStore. -/
theorem witness_memory_changes : ∃ t, step (reg 1 7 (wideAt 0 0xE5801001)) = .next t ∧ t.mem ≠ (reg 1 7 (wideAt 0 0xE5801001)).mem :=
  ⟨_, rfl, by decide⟩
/-- CacheEventsOfAStep: a load and a store that complete, and a faulting load. -/
theorem witness_events_load : (wideAt 0 0xE5902001).fetches (wideEntry 0xE5902001)
    ∧ decode (wideAt 0 0xE5902001).mode (wideEntry 0xE5902001).word = .instr (.ldr 2 0 1)
    ∧ faultRaised (.ldr 2 0 1) (wideAt 0 0xE5902001) = none := ⟨fetches_wideAt _, by decide, by decide⟩
theorem witness_events_store : (wideAt 0 0xE5801001).fetches (wideEntry 0xE5801001)
    ∧ decode (wideAt 0 0xE5801001).mode (wideEntry 0xE5801001).word = .instr (.str 1 0 1)
    ∧ faultRaised (.str 1 0 1) (wideAt 0 0xE5801001) = none := ⟨fetches_wideAt _, by decide, by decide⟩
theorem witness_events_none : ∀ rd rn imm,
    (decode (wideAt 0 0xE590F000).mode (wideEntry 0xE590F000).word = .instr (.ldr rd rn imm) →
      faultRaised (.ldr rd rn imm) (wideAt 0 0xE590F000) ≠ none)
    ∧ (decode (wideAt 0 0xE590F000).mode (wideEntry 0xE590F000).word = .instr (.str rd rn imm) →
      faultRaised (.str rd rn imm) (wideAt 0 0xE590F000) ≠ none) := fun _ _ _ => by
  rw [show decode (wideAt 0 0xE590F000).mode (wideEntry 0xE590F000).word = .instr (.ldr 15 0 0) by decide]
  exact ⟨fun h => by cases h; decide, fun h => by cases h⟩
/-- ProcessorNeverSeesTheCaches: two states of different geometry. -/
theorem witness_processorNeverSeesTheCaches :
    (wideAt 0 0xE5801001).sameButCache (otherCaches (wideAt 0 0xE5801001)) ∧ wideAt 0 0xE5801001 ≠ otherCaches (wideAt 0 0xE5801001) :=
  ⟨⟨rfl, rfl, rfl, rfl, rfl, rfl, rfl, rfl, rfl, rfl⟩, by decide⟩
/-- LoadReturnsTheLatestStore: the last byte of the same word, and the first of the next. -/
theorem witness_loadReturnsTheLatestStore : (memory 5 7 State.reset).mem.wf ∧ 23 / 4 = 20 / 4 ∧ 24 / 4 ≠ 20 / 4 := by decide
/-- CanonicalMemoriesThatReadAlikeAreEqual: two ways to write one memory. -/
theorem witness_canonicalMemories : Memory.wf ((Memory.setWord [] 1 7#32).setWord 2 9#32)
    ∧ Memory.wf ((Memory.setWord [] 2 9#32).setWord 1 7#32)
    ∧ (Memory.setWord [] 1 7#32).setWord 2 9#32 = (Memory.setWord [] 2 9#32).setWord 1 7#32 := by decide
/-- IndexAndTagNameTheBlock: equal and unequal blocks. -/
theorem witness_indexAndTag : 0 < 8 ∧ 0 < 4 ∧ 16 / 8 = 23 / 8 ∧ 16 / 8 ≠ 24 / 8 := by decide
/-- ColdFetchMissesAndRepeatHits. -/
theorem witness_coldFetch : Config.geometry.legal = true ∧ dirtyCache.wf := by decide
/-- SharedLevelTwoIgnoresTheSpace: two addresses of one block, after a miss on either side. -/
theorem witness_sharedLevelTwo_instruction : dirtyCache.wf
    ∧ 20 / dirtyCache.geometry.l2BlockSize = 16 / dirtyCache.geometry.l2BlockSize
    ∧ (dirtyCache.accessInstruction 20).iMiss = dirtyCache.iMiss + 1 := by decide
theorem witness_sharedLevelTwo : dirtyCache.wf ∧ 20 / dirtyCache.geometry.l2BlockSize = 16 / dirtyCache.geometry.l2BlockSize
    ∧ (dirtyCache.accessData 20 false).dMiss = dirtyCache.dMiss + 1 := by decide
/-- CacheOperationsActAsStatedOnHitAndMiss: in one hierarchy after a store and a fetch at 0, a hit and a miss of each array. -/
def warmCache : Hierarchy := dirtyCache.accessInstruction 0
theorem witness_cacheOperations_wf : warmCache.wf := by decide
theorem witness_cacheOperations_hits : (warmCache.l1i[0 / 8 % 4]?.map (fun l => l.hits (0 / 8 / 4)),
      warmCache.l1d[0 / 8 % 4]?.map (fun l => l.hits (0 / 8 / 4)), warmCache.l2[0 / 8 % 4]?.map (fun l => l.hits (0 / 8 / 4)))
    = (some true, some true, some true) := by decide
/-- A conflict at 32, of the same slot and another tag, and an invalid slot at 8. -/
theorem witness_cacheOperations_misses : [32, 8].map (fun a => (warmCache.l1i[a / 8 % 4]?.map (fun l => l.hits (a / 8 / 4)),
      warmCache.l1d[a / 8 % 4]?.map (fun l => l.hits (a / 8 / 4)), warmCache.l2[a / 8 % 4]?.map (fun l => l.hits (a / 8 / 4))))
    = [(some false, some false, some false), (some false, some false, some false)] := by decide
/-- WritebackCountsExactlyDirtyEvictions: a hit, an invalid slot, and a dirty eviction. -/
theorem witness_writeback_hit : dirtyCache.l1d[0 / 8 % 4]? = some { tag := 0, dirty := true, valid := true } := by decide
theorem witness_writeback_invalid : dirtyCache.l1d[8 / 8 % 4]? = some Line.invalid := by decide
theorem witness_writeback_evicts : dirtyCache.l1d[32 / 8 % 4]? = some { tag := 0, dirty := true, valid := true }
    ∧ (dirtyCache.accessData 32 false).writebacks = dirtyCache.writebacks + 1 := by decide

end Sys2Proof.Tests
end

section
/-!
PROOFS of the statements about reset (R38): what each accessor reads from a machine right after reset.
-/

namespace Sys2Proof.Machine

/-! ## The reset state through its accessors -/

@[simp] theorem State.readReg_resetWith (g : Geometry) (is : List Entry) (r : Reg) :
    (State.resetWith g is).readReg r = 0#32 :=
  Vector.getElem_replicate r.isLt

@[simp] theorem Memory.word_nil (k : Nat) : Memory.word [] k = 0#32 := by
  simp only [Memory.word, Memory.readByte_nil]
  decide

/-- The three arrays of a freshly configured hierarchy hold the reset line only (R35, R38). -/
theorem Hierarchy.eq_invalid_of_mem_cold {g : Geometry} {l : Line}
    (h : l ∈ (Hierarchy.cold g).l1i ++ (Hierarchy.cold g).l1d ++ (Hierarchy.cold g).l2) : l = Line.invalid := by
  simp only [List.mem_append] at h
  obtain (hI | hD) | h2 := h
  · exact List.eq_of_mem_replicate hI
  · exact List.eq_of_mem_replicate hD
  · exact List.eq_of_mem_replicate h2

theorem Hierarchy.lengths_cold (g : Geometry) :
    (Hierarchy.cold g).l1i.length = g.l1iSlots ∧ (Hierarchy.cold g).l1d.length = g.l1dSlots
      ∧ (Hierarchy.cold g).l2.length = g.l2Slots :=
  ⟨List.length_replicate, List.length_replicate, List.length_replicate⟩

/-! ## The reset table, R38 -/

/-- Settles O1: the registers, the memory words and the cache arrays by the lemmas above, every other row by the definition of the
reset state. -/
theorem resetLeavesTheTabledValues : Obligations.ResetLeavesTheTabledValues := by
  refine ⟨fun g is => ?_, Config.geometry, rfl⟩
  have hreg : ∀ r, (State.resetWith g is).readReg r = 0#32 := State.readReg_resetWith g is
  obtain ⟨hI, hD, h2⟩ := Hierarchy.lengths_cold g
  have hlines : ∀ l ∈ (Hierarchy.cold g).l1i ++ (Hierarchy.cold g).l1d ++ (Hierarchy.cold g).l2,
      l.valid = false ∧ l.tag = 0 ∧ l.dirty = false := by
    intro l hl
    obtain rfl := Hierarchy.eq_invalid_of_mem_cold hl
    exact ⟨rfl, rfl, rfl⟩
  exact ⟨hreg 15, rfl, rfl, fun r _ => hreg r, rfl, rfl, rfl, rfl, rfl, fun k _ => Memory.word_nil k, hI, hD, h2, hlines,
    rfl, rfl, rfl, rfl, rfl⟩

end Sys2Proof.Machine
end

section
/-!
PROOFS of the statements about the two memories: which entry of the instruction store covers a byte offset (R52), and what a word
read gives after a word write (R58, R59).
-/

namespace Sys2Proof.Machine

/-! ## The layout of the instruction store, R52 -/

@[simp] theorem totalBytes_nil : totalBytes [] = 0 := rfl

@[simp] theorem totalBytes_cons (e : Entry) (es : List Entry) : totalBytes (e :: es) = e.bytes + totalBytes es := by
  simp [totalBytes]

@[simp] theorem startOffset_zero (is : List Entry) : startOffset is 0 = 0 := rfl

@[simp] theorem startOffset_cons_succ (e : Entry) (es : List Entry) (k : Nat) :
    startOffset (e :: es) (k + 1) = e.bytes + startOffset es k := by
  simp [startOffset]

@[simp] theorem resolve_nil (p : Nat) : resolve [] p = none := rfl

theorem resolve_cons_of_lt {e : Entry} {p : Nat} (es : List Entry) (h : p < e.bytes) : resolve (e :: es) p = some 0 :=
  if_pos h

theorem resolve_cons_of_le {e : Entry} {p : Nat} (es : List Entry) (h : e.bytes ≤ p) :
    resolve (e :: es) p = (resolve es (p - e.bytes)).map (· + 1) :=
  if_neg (Nat.not_lt.2 h)

/-- `Resolve` is undefined exactly outside the program. -/
theorem resolve_eq_none_iff (is : List Entry) (p : Nat) : resolve is p = none ↔ totalBytes is ≤ p := by
  induction is generalizing p with
  | nil => simp
  | cons e es ih =>
    rcases Nat.lt_or_ge p e.bytes with h | h
    · simp only [resolve_cons_of_lt es h, totalBytes_cons, reduceCtorEq, false_iff]
      omega
    · simp only [resolve_cons_of_le es h, Option.map_eq_none_iff, ih, totalBytes_cons]
      omega

/-- `Resolve(p) = k` says no more and no less than that entry `k` covers `p`. -/
theorem resolve_eq_some_iff (is : List Entry) (p k : Nat) :
    resolve is p = some k ↔ ∃ e, is[k]? = some e ∧ startOffset is k ≤ p ∧ p < startOffset is k + e.bytes := by
  induction is generalizing p k with
  | nil => simp
  | cons e es ih =>
    rcases Nat.lt_or_ge p e.bytes with h | h
    · rw [resolve_cons_of_lt es h]
      cases k with
      | zero => simp [h]
      | succ k =>
        have hstart : p < startOffset (e :: es) (k + 1) := by
          rw [startOffset_cons_succ]
          omega
        exact iff_of_false (by simp) (fun ⟨_, _, hle, _⟩ => Nat.not_le.2 hstart hle)
    · rw [resolve_cons_of_le es h]
      cases k with
      | zero => simp [h]
      | succ k =>
        have hshift : ∀ f : Entry, (startOffset es k ≤ p - e.bytes ∧ p - e.bytes < startOffset es k + f.bytes) ↔
            (e.bytes + startOffset es k ≤ p ∧ p < e.bytes + startOffset es k + f.bytes) := fun f => by omega
        simp [ih, hshift]

/-- Settles O11: an offset inside the program resolves, to an entry that covers it, and any entry that covers it is what it
resolves to. -/
theorem resolveFindsTheOneCoveringEntry : Obligations.ResolveFindsTheOneCoveringEntry := by
  refine ⟨fun is p hp => ?_, fun is p hp => (resolve_eq_none_iff is p).2 hp⟩
  have hsome : resolve is p ≠ none := fun h => Nat.not_le.2 hp ((resolve_eq_none_iff is p).1 h)
  obtain ⟨k, hk⟩ := Option.ne_none_iff_exists'.1 hsome
  obtain ⟨e, he, hlo, hhi⟩ := (resolve_eq_some_iff is p k).1 hk
  refine ⟨k, e, hk, he, hlo, hhi, fun k' e' he' hlo' hhi' => ?_⟩
  have hk' : resolve is p = some k' := (resolve_eq_some_iff is p k').2 ⟨e', he', hlo', hhi'⟩
  exact Option.some.inj (hk'.symm.trans hk)

/-! ## Reading a word after writing one, R58 and R59 -/

/-- A word is its four bytes put together as `Memory.word` does. -/
theorem Word.append_bytes (v : Word) :
    v.extractLsb' 24 8 ++ v.extractLsb' 16 8 ++ v.extractLsb' 8 8 ++ v.extractLsb' 0 8 = v := by
  rw [BitVec.extractLsb'_append_extractLsb'_eq_extractLsb' (by rfl), BitVec.extractLsb'_append_extractLsb'_eq_extractLsb' (by rfl),
    BitVec.extractLsb'_append_extractLsb'_eq_extractLsb' (by rfl)]
  exact BitVec.extractLsb'_eq_self

/-- The word written is the word read: each of its bytes is read back past the later writes of its neighbours. -/
theorem Memory.word_setWord_self {m : Memory} (hm : m.wf) (k : Nat) (v : Word) : (m.setWord k v).word k = v := by
  have h0 := Memory.pairwise_writeByte hm.1 (4 * k) (v.extractLsb' 0 8)
  have h1 := Memory.pairwise_writeByte h0 (4 * k + 1) (v.extractLsb' 8 8)
  have h2 := Memory.pairwise_writeByte h1 (4 * k + 2) (v.extractLsb' 16 8)
  have byte3 : (m.setWord k v).readByte (4 * k + 3) = v.extractLsb' 24 8 := Memory.readByte_writeByte_self h2 _ _
  have byte2 : (m.setWord k v).readByte (4 * k + 2) = v.extractLsb' 16 8 := by
    rw [Memory.setWord, Memory.readByte_writeByte_of_ne _ _ (by omega), Memory.readByte_writeByte_self h1]
  have byte1 : (m.setWord k v).readByte (4 * k + 1) = v.extractLsb' 8 8 := by
    rw [Memory.setWord]
    iterate 2 rw [Memory.readByte_writeByte_of_ne _ _ (by omega)]
    rw [Memory.readByte_writeByte_self h0]
  have byte0 : (m.setWord k v).readByte (4 * k) = v.extractLsb' 0 8 := by
    rw [Memory.setWord]
    iterate 3 rw [Memory.readByte_writeByte_of_ne _ _ (by omega)]
    rw [Memory.readByte_writeByte_self hm.1]
  rw [Memory.word, byte3, byte2, byte1, byte0, Word.append_bytes]

/-- Writing a word leaves every other word alone, in any list of cells. -/
theorem Memory.word_setWord_of_ne (m : Memory) {j k : Nat} (v : Word) (h : j ≠ k) : (m.setWord k v).word j = m.word j := by
  unfold Memory.word
  iterate 4 rw [Memory.readByte_setWord_of_outside m v (by omega)]

/-- Settles O51: the two byte addresses name one word or two. -/
theorem loadReturnsTheLatestStore : Obligations.LoadReturnsTheLatestStore := by
  intro s a b v hm
  rw [State.memRead, State.memRead, State.memWrite_mem]
  split
  · next hsame => rw [hsame, Memory.word_setWord_self hm]
  · next hother => exact Memory.word_setWord_of_ne s.mem v hother

end Sys2Proof.Machine
end

section
/-!
PROOFS of the statement about the bits the wide formats ignore (R91): which words decode to which wide instruction, and which
fields of a word a flip of its ignored bits leaves alone.
-/

namespace Sys2Proof

/-! ## What a wide word decodes to, R90 -/

/-- The wide rows: the class and operation fields that select each instruction, and the fields that are its operands. -/
inductive WideForm (w : Word) : Instr → Prop where
  | and (hclass : classField w = 0b000#3) (hop : opField w = 0b0000#4) :
      WideForm w (.and (regField w 12) (regField w 16) (regField w 0))
  | eor (hclass : classField w = 0b000#3) (hop : opField w = 0b0001#4) :
      WideForm w (.eor (regField w 12) (regField w 16) (regField w 0))
  | sub (hclass : classField w = 0b000#3) (hop : opField w = 0b0010#4) :
      WideForm w (.sub (regField w 12) (regField w 16) (regField w 0))
  | add (hclass : classField w = 0b000#3) (hop : opField w = 0b0100#4) :
      WideForm w (.add (regField w 12) (regField w 16) (regField w 0))
  | cmp (hclass : classField w = 0b000#3) (hop : opField w = 0b1010#4) :
      WideForm w (.cmp (regField w 16) (regField w 0))
  | orr (hclass : classField w = 0b000#3) (hop : opField w = 0b1100#4) :
      WideForm w (.orr (regField w 12) (regField w 16) (regField w 0))
  | mov (hclass : classField w = 0b001#3) (hop : opField w = 0b1101#4) :
      WideForm w (.mov (regField w 12) (imm8Field w))
  | ldr (hclass : classField w = 0b010#3) (hload : w.getLsbD 20 = true) :
      WideForm w (.ldr (regField w 12) (regField w 16) (imm8Field w))
  | str (hclass : classField w = 0b010#3) (hstore : w.getLsbD 20 = false) :
      WideForm w (.str (regField w 12) (regField w 16) (imm8Field w))
  | b (hclass : classField w = 0b101#3) : WideForm w (.b (w.extractLsb' 0 24))
  | bx (hpattern : w &&& 0xFFFFFFF0#32 = 0xE12FFF10#32) : WideForm w (.bx (regField w 0))

theorem wideForm_of_decodeDataRegister {w : Word} {i : Instr} (hclass : classField w = 0b000#3)
    (h : decodeDataRegister w = .instr i) : WideForm w i := by
  unfold decodeDataRegister at h
  split_ifs at h with hand heor hsub hadd hcmp horr <;> cases h
  · exact .and hclass hand
  · exact .eor hclass heor
  · exact .sub hclass hsub
  · exact .add hclass hadd
  · exact .cmp hclass hcmp
  · exact .orr hclass horr

theorem wideForm_of_decodeWide {w : Word} {i : Instr} (h : decodeWide w = .instr i) : WideForm w i := by
  unfold decodeWide decodeDataImmediate decodeLoadStore at h
  split_ifs at h with hpattern hreg himm hop hmem hload hbranch
  · cases h; exact .bx hpattern
  · exact wideForm_of_decodeDataRegister hreg h
  · cases h; exact .mov himm hop
  · cases h; exact .ldr hmem hload
  · cases h; exact .str hmem (Bool.eq_false_of_not_eq_true hload)
  · cases h; exact .b hbranch

/-- The BX pattern lies in class `000` at an operation code no other row has: testing it first (R90) hides no row. -/
theorem fields_of_bxPattern {w : Word} (h : w &&& 0xFFFFFFF0#32 = 0xE12FFF10#32) :
    classField w = 0b000#3 ∧ opField w = 0b1001#4 := by
  have hclass : classField (w &&& 0xFFFFFFF0#32) = classField w &&& BitVec.allOnes 3 := BitVec.extractLsb'_and
  have hop : opField (w &&& 0xFFFFFFF0#32) = opField w &&& BitVec.allOnes 4 := BitVec.extractLsb'_and
  rw [h, BitVec.and_allOnes] at hclass hop
  exact ⟨hclass.symm, hop.symm⟩

theorem decodeWide_eq_decodeDataRegister {w : Word} (hclass : classField w = 0b000#3) (hop : opField w ≠ 0b1001#4) :
    decodeWide w = decodeDataRegister w := by
  rw [decodeWide, if_neg fun hp => hop (fields_of_bxPattern hp).2, if_pos hclass]

theorem ne_bxPattern_of_classField_ne {w : Word} (hclass : classField w ≠ 0b000#3) :
    w &&& 0xFFFFFFF0#32 ≠ 0xE12FFF10#32 :=
  fun hp => hclass (fields_of_bxPattern hp).1

theorem decodeWide_eq_decodeDataImmediate {w : Word} (hclass : classField w = 0b001#3) :
    decodeWide w = decodeDataImmediate w := by
  have hbx := ne_bxPattern_of_classField_ne (w := w) (by simp [hclass])
  simp [decodeWide, hbx, hclass]

theorem decodeWide_eq_decodeLoadStore {w : Word} (hclass : classField w = 0b010#3) :
    decodeWide w = decodeLoadStore w := by
  have hbx := ne_bxPattern_of_classField_ne (w := w) (by simp [hclass])
  simp [decodeWide, hbx, hclass]

theorem decodeWide_eq_branch {w : Word} (hclass : classField w = 0b101#3) :
    decodeWide w = .instr (.b (w.extractLsb' 0 24)) := by
  have hbx := ne_bxPattern_of_classField_ne (w := w) (by simp [hclass])
  simp [decodeWide, hbx, hclass]

/-! ## Flipping ignored bits, R91 -/

/-- A flip under a mask that is clear on a field leaves the field. -/
theorem extractLsb'_flip (w x : Word) {mask : Word} {lo n : Nat} (h : mask.extractLsb' lo n = 0#n) :
    (w ^^^ (x &&& mask)).extractLsb' lo n = w.extractLsb' lo n := by
  rw [BitVec.extractLsb'_xor, BitVec.extractLsb'_and, h, BitVec.and_zero, BitVec.xor_zero]

theorem classField_flip (w x : Word) {mask : Word} (h : mask.extractLsb' 25 3 = 0#3) :
    classField (w ^^^ (x &&& mask)) = classField w :=
  extractLsb'_flip w x h

theorem opField_flip (w x : Word) {mask : Word} (h : mask.extractLsb' 21 4 = 0#4) :
    opField (w ^^^ (x &&& mask)) = opField w :=
  extractLsb'_flip w x h

theorem imm8Field_flip (w x : Word) {mask : Word} (h : mask.extractLsb' 0 8 = 0#8) :
    imm8Field (w ^^^ (x &&& mask)) = imm8Field w :=
  extractLsb'_flip w x h

theorem regField_flip (w x : Word) {mask : Word} {lo : Nat} (h : mask.extractLsb' lo 4 = 0#4) :
    regField (w ^^^ (x &&& mask)) lo = regField w lo :=
  congrArg BitVec.toFin (extractLsb'_flip w x h)

theorem getLsbD_flip (w x : Word) {mask : Word} {k : Nat} (h : mask.getLsbD k = false) :
    (w ^^^ (x &&& mask)).getLsbD k = w.getLsbD k := by
  rw [BitVec.getLsbD_xor, BitVec.getLsbD_and, h, Bool.and_false, Bool.xor_false]

/-- The bits a row ignores are outside the fields that select it and outside its operands. -/
theorem decodeWide_flip_ignoredBits {w : Word} {i : Instr} (x : Word) (h : WideForm w i) :
    decodeWide (w ^^^ (x &&& i.ignoredBits)) = .instr i := by
  cases h with
  | and hclass hop | eor hclass hop | sub hclass hop | add hclass hop | cmp hclass hop | orr hclass hop =>
    rw [Instr.ignoredBits, decodeWide_eq_decodeDataRegister ((classField_flip w x rfl).trans hclass)
      (by simp [opField_flip, hop])]
    simp [decodeDataRegister, opField_flip, regField_flip, hop]
  | mov hclass hop =>
    rw [Instr.ignoredBits, decodeWide_eq_decodeDataImmediate ((classField_flip w x rfl).trans hclass)]
    simp [decodeDataImmediate, opField_flip, regField_flip, imm8Field_flip, hop]
  | ldr hclass hbit | str hclass hbit =>
    rw [Instr.ignoredBits, decodeWide_eq_decodeLoadStore ((classField_flip w x rfl).trans hclass), decodeLoadStore,
      getLsbD_flip w x rfl, hbit]
    simp [regField_flip, imm8Field_flip]
  | b hclass =>
    rw [Instr.ignoredBits, decodeWide_eq_branch ((classField_flip w x rfl).trans hclass), extractLsb'_flip w x rfl]
  | bx hpattern =>
    rw [Instr.ignoredBits, BitVec.and_zero, BitVec.xor_zero, decodeWide, if_pos hpattern]

/-- Settles O16: whichever wide row the word is of, that row's ignored bits leave the decoder's answer. -/
theorem ignoredBitsChangeNothing : Obligations.IgnoredBitsChangeNothing := by
  intro w x i h
  have hform : WideForm w i := wideForm_of_decodeWide h
  exact decodeWide_flip_ignoredBits x hform

end Sys2Proof
end

section
/-!
PROOFS of the statements about the wide data-processing instructions (R130 to R140): the step of a fetched instruction that is no
branch, the two flags of a result as the statements say them, and then each instruction's whole next state.
-/

namespace Sys2Proof.Machine

/-! ## The step of a fetched instruction, R222 to R227 -/

/-- The decoder of a mode answers instructions of that mode only (R80). -/
theorem mode_of_decode {m : Mode} {w : Word} {i : Instr} (h : decode m w = .instr i) : i.mode = m := by
  cases m with
  | wide =>
    have hform : WideForm w i := wideForm_of_decodeWide h
    cases hform <;> rfl
  | compact =>
    change decodeCompact w = .instr i at h
    unfold decodeCompact decodeShiftAddSub at h
    split_ifs at h <;> cases h <;> rfl

theorem pcOutOfRange_of_fetches {s : State} {e : Entry} (h : s.fetches e) : s.pcOutOfRange = false := by
  obtain ⟨-, hlo, hhi, -⟩ := h
  exact decide_eq_false (not_or.2 ⟨Int.not_lt.2 hlo, Int.not_le.2 hhi⟩)

theorem fetchEntry_of_fetches {s : State} {e : Entry} (h : s.fetches e) : s.fetchEntry = some e := by
  obtain ⟨-, -, -, k, hk, he⟩ := h
  exact (congrArg (Option.bind · fun k => s.store[k]?) hk).trans he

theorem step_of_fetches {s : State} {e : Entry} (h : s.fetches e) : step s = executeEntry s e := by
  have hrunning : s.run = .running := h.1
  simp [step, hrunning, pcOutOfRange_of_fetches h, fetchEntry_of_fetches h]

/-- Only a branch-exchange execution changes the mode (R163). -/
theorem ExecShape.mode_eq {i : Instr} {s t : State} (h : ExecShape i s t) (hi : isBranchExchange i = false) :
    t.mode = s.mode := by
  cases h with
  | exchange rm x m hbx => obtain rfl | rfl := hbx <;> cases hi
  | _ => rfl

theorem isBranchExchange_of_setsPc {i : Instr} (h : Instr.setsPc i = false) : isBranchExchange i = false := by
  cases i with
  | bx rm | cBx rm => cases h
  | _ => rfl

/-- An instruction that does not set the program counter advances by the length its own mode gives (R226): it was decoded in that
mode, and its execution leaves the mode. -/
theorem advancesBy_stepBytes {i : Instr} (hi : Instr.setsPc i = false) : advancesBy i (BitVec.ofNat 32 (stepBytes i.mode)) := by
  intro s t e hfetch hdecode hexec
  have hmode : t.mode = i.mode :=
    ((ExecShape.of_exec hexec).mode_eq (isBranchExchange_of_setsPc hi)).trans (mode_of_decode hdecode).symm
  have hdecoded : s.decodeEntry e = .instr i := hdecode
  have hrun : execDecoded (.instr i) s.instructionEvent = .next t := hexec
  have hretire : t.retire (.instr i) = t.advance := if_neg (by simp [Decoded.setsPc, hi])
  rw [step_of_fetches hfetch, executeEntry, hdecoded, hrun, retireOutcome, hretire, ← hmode]
  rfl

/-! ## The flags of a result, R26 -/

theorem zeroFlag_eq (v : Word) : zeroFlag v = decide (uint v = 0) := by
  rw [zeroFlag, beq_eq_decide, decide_eq_decide, BitVec.toNat_eq]
  rfl

theorem negativeFlag_eq (v : Word) : negativeFlag v = decide (sint v < 0) := by
  rw [← BitVec.msb_eq_toInt, BitVec.msb_eq_getLsbD_last]
  rfl

theorem writeResult_eq_withResult (s : State) (rd : Reg) (r : Word) : s.writeResult rd r = s.withResult rd r := by
  rw [State.withResult, ← zeroFlag_eq, ← negativeFlag_eq]
  rfl

/-! ## The wrapped difference and sum, R138 -/

theorem subWord_eq_trunc32 (a b : Word) : subWord a b = trunc32 ((uint a : Int) - uint b) := by
  simp [subWord, trunc32, Int.sub_eq_add_neg, BitVec.ofInt_add, BitVec.ofInt_neg, BitVec.sub_eq_add_neg]

theorem addWord_eq_trunc32 (a b : Word) : addWord a b = trunc32 ((uint a : Int) + uint b) := by
  simp [addWord, trunc32, BitVec.ofInt_add]

/-- The difference wraps to 0 only when the operands are equal (R136). -/
theorem zeroFlag_subWord (a b : Word) : zeroFlag (subWord a b) = decide (a = b) := by
  rw [zeroFlag, subWord, beq_eq_decide, decide_eq_decide]
  exact sub_eq_zero

/-! ## The zero-extended immediate, R98 -/

theorem zextImm_eq_ofNat (imm : BitVec 8) : zextImm imm = BitVec.ofNat 32 imm.toNat :=
  (BitVec.ofNat_toNat 32 imm).symm

theorem zeroFlag_zextImm (imm : BitVec 8) : zeroFlag (zextImm imm) = decide (imm = 0#8) := by
  have huint : uint (zextImm imm) = imm.toNat := BitVec.toNat_setWidth_of_le (by decide)
  rw [zeroFlag_eq, huint, decide_eq_decide, BitVec.toNat_eq]
  rfl

theorem negativeFlag_zextImm (imm : BitVec 8) : negativeFlag (zextImm imm) = false := by
  simp [negativeFlag, zextImm]

/-! ## AND, EOR, SUB, ADD and ORR, R130 to R135 -/

/-- The common behaviour of R130 as a whole next state: the result of `op` with its flags, or the latch bit of `PC_WRITE`. -/
theorem execDataProcessing_next (op : Word → Word → Word) (rd rn rm : Reg) (s : State) :
    (rd ≠ 15 → execDataProcessing op rd rn rm s = .next (s.withResult rd (op (s.readReg rn) (s.readReg rm))))
      ∧ (rd = 15 → execDataProcessing op rd rn rm s = .next (s.withLatch 0b10#2)) := by
  refine ⟨fun h => ?_, fun h => execDataProcessing_of_pc op rn rm s h⟩
  rw [execDataProcessing_of_ne op rn rm s h, writeResult_eq_withResult]

/-- Settles O19: the common behaviour of R130 with bitwise and. -/
theorem andWritesTheConjunction : Obligations.AndWritesTheConjunction := by
  intro rd rn rm
  exact ⟨execDataProcessing_next (· &&& ·) rd rn rm, advancesBy_stepBytes rfl⟩

/-- Settles O20: the common behaviour of R130 with bitwise exclusive or. -/
theorem eorWritesTheExclusiveOr : Obligations.EorWritesTheExclusiveOr := by
  intro rd rn rm
  exact ⟨execDataProcessing_next (· ^^^ ·) rd rn rm, advancesBy_stepBytes rfl⟩

/-- Settles O21: the common behaviour of R130 with word subtraction, which is the difference modulo `2^32`. -/
theorem subWritesTheWrappedDifference : Obligations.SubWritesTheWrappedDifference := by
  intro rd rn rm
  refine ⟨fun s => ?_, advancesBy_stepBytes rfl⟩
  rw [← subWord_eq_trunc32]
  exact execDataProcessing_next subWord rd rn rm s

/-- Settles O22: the common behaviour of R130 with word addition, which is the sum modulo `2^32`. -/
theorem addWritesTheWrappedSum : Obligations.AddWritesTheWrappedSum := by
  intro rd rn rm
  refine ⟨fun s => ?_, advancesBy_stepBytes rfl⟩
  rw [← addWord_eq_trunc32]
  exact execDataProcessing_next addWord rd rn rm s

/-- Settles O23: the common behaviour of R130 with bitwise or. -/
theorem orrWritesTheDisjunction : Obligations.OrrWritesTheDisjunction := by
  intro rd rn rm
  exact ⟨execDataProcessing_next (· ||| ·) rd rn rm, advancesBy_stepBytes rfl⟩

/-! ## CMP and MOV, R136 and R137 -/

/-- Settles O24: both flags are those of the word difference. -/
theorem cmpSetsFlagsFromTheDifference : Obligations.CmpSetsFlagsFromTheDifference := by
  intro rn rm
  refine ⟨fun s => ?_, advancesBy_stepBytes rfl⟩
  rw [← subWord_eq_trunc32, ← zeroFlag_subWord, ← negativeFlag_eq]
  rfl

/-- Settles O25: the flags of a zero-extended byte are those of the byte's being 0 and `false`. -/
theorem movWritesTheZeroExtendedImmediate : Obligations.MovWritesTheZeroExtendedImmediate := by
  intro rd imm
  refine ⟨fun s => ⟨fun h => ?_, fun h => execMov_of_pc imm s h⟩, advancesBy_stepBytes rfl⟩
  rw [← zextImm_eq_ofNat, ← zeroFlag_zextImm, ← negativeFlag_zextImm imm]
  exact execMov_of_ne imm s h

end Sys2Proof.Machine
end

section
/-!
PROOFS of the statements about LDR and STR (R150 to R155): what an instruction answers when it raises a fault and what a load or a
store answers when it raises none, and then the cache events of a whole step.
-/

namespace Sys2Proof.Machine

/-! ## An execution with a fault and without, R151, R152 and R243 -/

/-- An instruction that raises a fault sets the latch bit of that fault and does nothing else: of the seven shapes of an
execution only the faulting one is left. -/
theorem exec_of_faultRaised {i : Instr} {s : State} {f : RuntimeFault} (h : faultRaised i s = some f) :
    exec i s = .next (s.latchFault f) := by
  obtain ⟨t, hexec, hshape⟩ := exec_shape i s
  cases hshape with
  | fault g hg =>
    obtain rfl : g = f := Option.some.inj (hg.symm.trans h)
    exact hexec
  | result rd x hrd hw hf hn => cases hn.symm.trans h
  | load rd rn imm hi hrd h0 h1 =>
    subst hi
    cases (ldrFault_eq_none.2 ⟨hrd, h0, h1⟩).symm.trans h
  | store rd rn imm hi h0 h1 =>
    subst hi
    cases (addressFault_eq_none.2 ⟨h0, h1⟩).symm.trans h
  | flags rn rm x hi => subst hi; cases h
  | jump off x hi => subst hi; cases h
  | exchange rm x m hi => obtain rfl | rfl := hi <;> cases h

theorem exec_ldr_of_no_fault {rd rn : Reg} {imm : BitVec 8} {s : State} (h : ldrFault rd rn imm s = none) :
    exec (.ldr rd rn imm) s = .next ((s.writeReg rd (s.memRead (s.effectiveAddress rn imm).toNat)).accessData
      (s.effectiveAddress rn imm).toNat false) := by
  simp [exec, execLdr, h]

theorem exec_str_of_no_fault {rd rn : Reg} {imm : BitVec 8} {s : State} (h : strFault rn imm s = none) :
    exec (.str rd rn imm) s = .next ((s.memWrite (s.effectiveAddress rn imm).toNat (s.readReg rd)).accessData
      (s.effectiveAddress rn imm).toNat true) := by
  simp [exec, execStr, h]

/-! ## The fault of a load, R154, R242 and R245 -/

theorem faultRaised_ldr_of_pc {rd : Reg} (rn : Reg) (imm : BitVec 8) (s : State) (h : rd = 15) :
    faultRaised (.ldr rd rn imm) s = some (.pcWrite rd) := by
  rw [faultRaised, ldrFault, destFault_of_pc h, Option.some_or]

theorem faultRaised_ldr_of_outOfRange {rd rn : Reg} {imm : BitVec 8} {s : State} (hrd : rd ≠ 15)
    (h : s.effectiveAddress rn imm < 0 ∨ 4096 ≤ s.effectiveAddress rn imm) :
    faultRaised (.ldr rd rn imm) s = some (.memRange (s.effectiveAddress rn imm)) := by
  rw [faultRaised, ldrFault, destFault_of_ne hrd, addressFault_of_outOfRange h, Option.none_or]

/-! ## The recorded store address, R153 -/

theorem storeAddress_str_of_no_fault (rd : Reg) {rn : Reg} {imm : BitVec 8} {s : State} (h : strFault rn imm s = none) :
    storeAddress (.str rd rn imm) s = some (s.effectiveAddress rn imm) := by
  simp [storeAddress, h]

theorem storeAddress_of_faultRaised {i : Instr} {s : State} {f : RuntimeFault} (h : faultRaised i s = some f) :
    storeAddress i s = none := by
  cases i with
  | str rd rn imm =>
    have hfault : strFault rn imm s = some f := h
    simp [storeAddress, hfault]
  | _ => rfl

/-! ## LDR and STR, R151 and R152 -/

/-- Settles O26: an address in range with a destination other than 15 raises no fault; each other case raises its own. -/
theorem ldrLoadsTheWordAtItsEffectiveAddress : Obligations.LdrLoadsTheWordAtItsEffectiveAddress := by
  intro rd rn imm
  refine ⟨fun s => ⟨fun hrd h0 h1 => ?_, fun hrd hout => ?_, fun hrd => ?_⟩, advancesBy_stepBytes rfl⟩
  · exact exec_ldr_of_no_fault (ldrFault_eq_none.2 ⟨hrd, h0, h1⟩)
  · exact exec_of_faultRaised (faultRaised_ldr_of_outOfRange hrd hout)
  · exact exec_of_faultRaised (faultRaised_ldr_of_pc rn imm s hrd)

/-- Settles O27: an address in range raises no fault, and one out of range raises `MEM_RANGE`; the destination raises none. -/
theorem strStoresTheWordAtItsEffectiveAddress : Obligations.StrStoresTheWordAtItsEffectiveAddress := by
  intro rd rn imm
  refine ⟨fun s => ⟨fun h0 h1 => ?_, fun hout => ?_⟩, advancesBy_stepBytes rfl⟩
  · have hnone : strFault rn imm s = none := addressFault_of_inRange h0 h1
    exact ⟨exec_str_of_no_fault hnone, storeAddress_str_of_no_fault rd hnone⟩
  · have hfault : faultRaised (.str rd rn imm) s = some (.memRange (s.effectiveAddress rn imm)) :=
      addressFault_of_outOfRange hout
    exact ⟨exec_of_faultRaised hfault, storeAddress_of_faultRaised hfault⟩

/-! ## The cache events of a step, R155 and R223 -/

@[simp] theorem State.retire_cache (d : Decoded) (s : State) : (s.retire d).cache = s.cache := by
  obtain h | h := s.retire_cases d <;> simp [h]

/-- The fault checks read registers only, so the fetch's cache access does not move them (R206). -/
@[simp] theorem faultRaised_instructionEvent (i : Instr) (s : State) : faultRaised i s.instructionEvent = faultRaised i s := by
  cases i <;> rfl

/-- The cache after a step is the one its execution left: the advance issues no access. -/
theorem cache_of_step_of_fetches {s t u : State} {e : Entry} {d : Decoded} (hfetch : s.fetches e) (hstep : step s = .next t)
    (hdecode : decode s.mode e.word = d) (hexec : execDecoded d s.instructionEvent = .next u) : t.cache = u.cache := by
  have hdecoded : s.decodeEntry e = d := hdecode
  rw [step_of_fetches hfetch, executeEntry, hdecoded, hexec, retireOutcome] at hstep
  cases hstep
  exact u.retire_cache d

/-- An execution leaves the cache, unless it is a load or a store that raises no fault (R155). -/
theorem ExecShape.cache_cases {i : Instr} {s t : State} (h : ExecShape i s t) :
    t.cache = s.cache ∨ ∃ rd rn imm, (i = .ldr rd rn imm ∨ i = .str rd rn imm) ∧ faultRaised i s = none := by
  cases h with
  | load rd rn imm hi hrd h0 h1 =>
    subst hi
    exact .inr ⟨rd, rn, imm, .inl rfl, ldrFault_eq_none.2 ⟨hrd, h0, h1⟩⟩
  | store rd rn imm hi h0 h1 =>
    subst hi
    exact .inr ⟨rd, rn, imm, .inr rfl, addressFault_eq_none.2 ⟨h0, h1⟩⟩
  | _ => exact .inl rfl

/-- Settles O46: the fetch's access comes first, then the execution's, which is a completing load's or store's or none. -/
theorem cacheEventsOfAStep : Obligations.CacheEventsOfAStep := by
  intro s t e hfetch hstep
  refine ⟨fun rd rn imm hdecode hnone => ?_, fun rd rn imm hdecode hnone => ?_, fun hldr hstr => ?_⟩
  · have hfetched : faultRaised (.ldr rd rn imm) s.instructionEvent = none := (faultRaised_instructionEvent _ s).trans hnone
    exact cache_of_step_of_fetches hfetch hstep hdecode (exec_ldr_of_no_fault hfetched)
  · have hfetched : faultRaised (.str rd rn imm) s.instructionEvent = none := (faultRaised_instructionEvent _ s).trans hnone
    exact cache_of_step_of_fetches hfetch hstep hdecode (exec_str_of_no_fault hfetched)
  · cases hdecode : decode s.mode e.word with
    | unknown => exact cache_of_step_of_fetches hfetch hstep hdecode rfl
    | instr i =>
      obtain ⟨u, hexec, hshape⟩ := exec_shape i s.instructionEvent
      rw [cache_of_step_of_fetches hfetch hstep hdecode hexec]
      obtain hcache | ⟨rd, rn, imm, rfl | rfl, hnone⟩ := hshape.cache_cases
      · exact hcache
      · exact absurd ((faultRaised_instructionEvent _ s).symm.trans hnone) (hldr rd rn imm hdecode)
      · exact absurd ((faultRaised_instructionEvent _ s).symm.trans hnone) (hstr rd rn imm hdecode)

end Sys2Proof.Machine
end

section
/-!
PROOFS of the statements about control transfer (R160 to R166): the step of a fetched branch, the branch target and the mode bit as
the statements say them, each branch's whole next state, and then what a step does to the mode.
-/

namespace Sys2Proof.Machine

/-! ## The step of a fetched branch, R227 -/

/-- The step of a fetched entry is the retiring of what its execution answered. -/
theorem step_eq_retire_of_fetches {s u : State} {e : Entry} {d : Decoded} (hfetch : s.fetches e)
    (hdecode : decode s.mode e.word = d) (hexec : execDecoded d s.instructionEvent = .next u) :
    step s = .next (u.retire d) := by
  have hdecoded : s.decodeEntry e = d := hdecode
  rw [step_of_fetches hfetch, executeEntry, hdecoded, hexec, retireOutcome]

/-- After an instruction that sets the program counter itself, retiring does nothing (R227). -/
theorem setsItsOwnPc_of_setsPc {i : Instr} (hi : Instr.setsPc i = true) : setsItsOwnPc i := by
  intro s t e hfetch hdecode hexec
  have hretire : t.retire (.instr i) = t := if_pos hi
  have hstep : step s = .next (t.retire (.instr i)) := step_eq_retire_of_fetches hfetch hdecode hexec
  rwa [hretire] at hstep

/-! ## B, R160 -/

/-- R100's displacement is four times the signed word count: sign extension keeps the integer, and the two bits appended below
multiply it by 4. -/
theorem branchDisplacement_eq_trunc32 (off : BitVec 24) : branchDisplacement off = trunc32 (4 * off.toInt) :=
  congrArg (BitVec.ofInt 32) (BitVec.toInt_append_zero (x := off) (m := 2))

/-- The three word summands of B's target wrap to the integer sum modulo `2^32`. -/
theorem branchTarget_eq_trunc32 (a : Word) (off : BitVec 24) :
    a + branchDisplacement off + branchBias = trunc32 ((uint a : Int) + 4 * off.toInt + 8) := by
  have hbias : branchBias = BitVec.ofInt 32 8 := rfl
  have haddr : BitVec.ofInt 32 (uint a : Int) = a := by simp
  rw [branchDisplacement_eq_trunc32, trunc32, trunc32, BitVec.ofInt_add, BitVec.ofInt_add, haddr, hbias]

/-- Settles O28: the word sum `exec` writes is the integer sum of R160 modulo `2^32`. -/
theorem branchGoesToItsTarget : Obligations.BranchGoesToItsTarget := by
  intro off
  refine ⟨fun s => ?_, setsItsOwnPc_of_setsPc rfl⟩
  rw [← branchTarget_eq_trunc32]
  rfl

/-! ## The two forms of BX, R161 and R162 -/

/-- Bit 0 of the target is its parity (R106). -/
theorem targetMode_eq (t : Word) : targetMode t = if uint t % 2 = 1 then .compact else .wide := by
  have hbit : t.getLsbD 0 = decide (uint t % 2 = 1) := Nat.testBit_zero t.toNat
  rw [targetMode, hbit]
  simp

/-- The shared behaviour of both forms as a whole next state. -/
theorem execBranchExchange_next (rm : Reg) (s : State) :
    execBranchExchange rm s = .next
      { s with
        regs := s.regs.set 15 (s.readReg rm &&& 0xFFFFFFFE#32)
        mode := if uint (s.readReg rm) % 2 = 1 then .compact else .wide } := by
  rw [← targetMode_eq]
  rfl

/-- Settles O29: the wide form is the shared behaviour. -/
theorem wideBxJumpsAndSwitchesMode : Obligations.WideBxJumpsAndSwitchesMode := by
  intro rm
  exact ⟨execBranchExchange_next rm, setsItsOwnPc_of_setsPc rfl⟩

/-- Settles O30: the compact form is the same shared behaviour. -/
theorem compactBxJumpsAndSwitchesMode : Obligations.CompactBxJumpsAndSwitchesMode := by
  intro rm
  exact ⟨execBranchExchange_next rm, setsItsOwnPc_of_setsPc rfl⟩

/-! ## What a step does to the mode, R163 -/

/-- A running machine that fetched an entry past the halt check fetched the one that covers its program counter. -/
theorem fetches_of_fetchEntry {s : State} {e : Entry} (hrun : s.run = .running) (hpc : s.pcOutOfRange = false)
    (hfetch : s.fetchEntry = some e) : s.fetches e := by
  obtain ⟨hlo, hhi⟩ := not_or.1 (of_decide_eq_false hpc)
  exact ⟨hrun, Int.not_lt.1 hlo, Int.not_le.1 hhi, Option.bind_eq_some_iff.1 hfetch⟩

@[simp] theorem State.retire_mode (d : Decoded) (s : State) : (s.retire d).mode = s.mode := by
  obtain h | h := s.retire_cases d <;> simp [h]

theorem isBranchExchange_eq_true {i : Instr} (h : isBranchExchange i = true) : ∃ rm, i = .bx rm ∨ i = .cBx rm := by
  cases i with
  | bx rm => exact ⟨rm, .inl rfl⟩
  | cBx rm => exact ⟨rm, .inr rfl⟩
  | _ => cases h

/-- What executes and changes the mode is a BX: an UNKNOWN word does nothing, and no other instruction writes the mode. -/
theorem DecodedShape.exchange_of_mode_ne {d : Decoded} {s t : State} (h : DecodedShape s d t) (hne : t.mode ≠ s.mode) :
    ∃ rm, d = .instr (.bx rm) ∨ d = .instr (.cBx rm) := by
  cases h with
  | unknown => exact absurd rfl hne
  | instr i t hshape =>
    have hbx : isBranchExchange i = true := Bool.of_not_eq_false fun hi => hne (hshape.mode_eq hi)
    obtain ⟨rm, hi⟩ := isBranchExchange_eq_true hbx
    exact ⟨rm, hi.imp (congrArg _) (congrArg _)⟩

/-- Settles O42: of the three shapes of a step only an execution can change the mode, and that execution is a BX. -/
theorem modeChangesOnlyByBranchExchange : Obligations.ModeChangesOnlyByBranchExchange := by
  refine ⟨fun _ _ => rfl, fun s t hstep hne => ?_⟩
  cases step_shape hstep with
  | stay _ => exact absurd rfl hne
  | halt _ _ => exact absurd rfl hne
  | execute e u hrun hpc hfetch _ hshape =>
    rw [State.retire_mode] at hne
    obtain ⟨rm, hdecode⟩ := hshape.exchange_of_mode_ne hne
    exact ⟨e, rm, fetches_of_fetchEntry hrun hpc hfetch, hdecode⟩

end Sys2Proof.Machine
end

section
/-!
PROOFS of the statements about the compact data-processing instructions (R170 to R174): the shift as the statement says it, and each
instruction's whole next state.
-/

namespace Sys2Proof.Machine

/-- A shift left by `k` bits is a product with `2^k` modulo `2^32` (R171). -/
theorem shiftLeftWord_eq_trunc32 (a : Word) (shamt : BitVec 5) :
    shiftLeftWord a shamt = trunc32 ((uint a : Int) * 2 ^ shamt.toNat) := by
  have hcast : (uint a : Int) * 2 ^ shamt.toNat = ((a.toNat <<< shamt.toNat : Nat) : Int) := by
    rw [Nat.shiftLeft_eq]
    push_cast
    rfl
  rw [trunc32, hcast, BitVec.ofInt_natCast]
  exact BitVec.shiftLeft_eq a shamt.toNat

/-- The common behaviour of R170 as a whole next state: the result with its flags, and no fault case. -/
theorem execCompactResult_next (rd : LowReg) (r : Word) (s : State) :
    execCompactResult rd r s = .next (s.withResult (lowReg rd) r) := by
  rw [← writeResult_eq_withResult]
  rfl

/-- Settles O31: the common behaviour of R170 with the shift, which is the product modulo `2^32`. -/
theorem lslWritesTheShiftedValue : Obligations.LslWritesTheShiftedValue := by
  intro rd rn shamt
  refine ⟨fun s => ?_, advancesBy_stepBytes rfl⟩
  rw [← shiftLeftWord_eq_trunc32]
  exact execCompactResult_next rd _ s

/-- Settles O32: the common behaviour of R170 with word addition, which is the sum modulo `2^32`. -/
theorem compactAddWritesTheWrappedSum : Obligations.CompactAddWritesTheWrappedSum := by
  intro rd rn rm
  refine ⟨fun s => ?_, advancesBy_stepBytes rfl⟩
  rw [← addWord_eq_trunc32]
  exact execCompactResult_next rd _ s

/-- Settles O33: the common behaviour of R170 with word subtraction, which is the difference modulo `2^32`. -/
theorem compactSubWritesTheWrappedDifference : Obligations.CompactSubWritesTheWrappedDifference := by
  intro rd rn rm
  refine ⟨fun s => ?_, advancesBy_stepBytes rfl⟩
  rw [← subWord_eq_trunc32]
  exact execCompactResult_next rd _ s

/-- Settles O34: the flags of a zero-extended byte are those of the byte's being 0 and `false`. -/
theorem compactMovWritesTheImmediate : Obligations.CompactMovWritesTheImmediate := by
  intro rd imm
  refine ⟨fun s => ?_, advancesBy_stepBytes rfl⟩
  rw [← zextImm_eq_ofNat, ← zeroFlag_zextImm, ← negativeFlag_zextImm imm]
  rfl

end Sys2Proof.Machine
end

section
/-!
PROOFS of the statement about UNKNOWN words (R180, R246): the record of a step that fetched an entry, the length of the advance as the
statement says it, and then the step and the record of an UNKNOWN word.
-/

namespace Sys2Proof.Machine

/-- The record of a step that fetched an entry is made from what the entry's execution answered (R237). -/
theorem traceRecord_of_fetches {s u : State} {e : Entry} {d : Decoded} (hfetch : s.fetches e)
    (hdecode : decode s.mode e.word = d) (hexec : execDecoded d s.instructionEvent = .next u) :
    s.traceRecord = some (traceOf s e u) := by
  have hrunning : s.run = .running := hfetch.1
  have hdecoded : s.decodeEntry e = d := hdecode
  simp [State.traceRecord, hrunning, pcOutOfRange_of_fetches hfetch, fetchEntry_of_fetches hfetch, hdecoded, hexec]

/-- `STEP(mode)` as a word (R226). -/
theorem ofNat_stepBytes (m : Mode) : BitVec.ofNat 32 (stepBytes m) = if m = .wide then 4#32 else 2#32 := by
  cases m <;> rfl

/-- Settles O7: an UNKNOWN word executes to the state after the fetch's access, which retiring then advances; having no
instruction, it has no fault and no store address to record. -/
theorem unknownWordIsANoOp : Obligations.UnknownWordIsANoOp := by
  intro s e hfetch hdecode
  have hdecoded : s.decodeEntry e = .unknown := hdecode
  have hexec : execDecoded .unknown s.instructionEvent = .next s.instructionEvent := rfl
  refine ⟨?_, traceOf s e s.instructionEvent, traceRecord_of_fetches hfetch hdecode hexec, ?_, ?_, ?_⟩
  · rw [← ofNat_stepBytes]
    exact step_eq_retire_of_fetches hfetch hdecode hexec
  · exact congrArg Decoded.mnemonic hdecoded
  · rw [traceOf, hdecoded]
    rfl
  · rw [traceOf, hdecoded]
    rfl

end Sys2Proof.Machine
end

section
/-!
PROOFS of the statements about the cache hierarchy (R190 to R202): what an index and a tag name, each operation's answer on a hit and
on a miss, the cache accesses of a step, and the cost as a number no access lowers.
-/

namespace Sys2Proof.Machine

/-! ## Index and tag, R193 -/

/-- Settles O53: index and tag are the remainder and the quotient of one division of the block, which determine it. -/
theorem indexAndTagNameTheBlock : Obligations.IndexAndTagNameTheBlock := by
  intro a b size slots _ _
  exact ⟨rfl, rfl, and_comm.trans (Nat.ext_div_mod_iff slots (a / size) (b / size)).symm⟩

/-! ## The three operations on a hit and on a miss, R194 to R200 -/

theorem Line.hits_iff {l : Line} {tag : Nat} : l.hits tag = true ↔ l.valid = true ∧ l.tag = tag := by
  simp [Line.hits]

theorem lineAt_of_getElem? {lines : List Line} {i : Nat} {l : Line} (h : lines[i]? = some l) : lineAt lines i = l := by
  simp [lineAt, h]

/-- A miss adds 1 to the writebacks or 0, by whether the line it replaces is valid and dirty (R199). -/
theorem writebacks_of_miss (l : Line) (n : Nat) :
    (if l.valid = true ∧ l.dirty = true then n + 1 else n) = n + (if l.valid && l.dirty then 1 else 0) := by
  simp only [Bool.and_eq_true, add_ite, Nat.add_zero]

section
variable {h : Hierarchy} {a : Nat} {l : Line}

theorem Hierarchy.checkL2_of_hit
    (hl : h.l2[cacheIndex a h.geometry.l2BlockSize h.geometry.l2Slots]? = some l)
    (hit : l.valid = true ∧ l.tag = cacheTag a h.geometry.l2BlockSize h.geometry.l2Slots) : h.checkL2 a = h := by
  obtain rfl := lineAt_of_getElem? hl
  exact if_pos (Line.hits_iff.2 hit)

theorem Hierarchy.checkL2_of_miss
    (hl : h.l2[cacheIndex a h.geometry.l2BlockSize h.geometry.l2Slots]? = some l)
    (miss : ¬(l.valid = true ∧ l.tag = cacheTag a h.geometry.l2BlockSize h.geometry.l2Slots)) :
    h.checkL2 a =
      { h with
        l2Miss := h.l2Miss + 1
        l2 := h.l2.set (cacheIndex a h.geometry.l2BlockSize h.geometry.l2Slots)
          (freshLine (cacheTag a h.geometry.l2BlockSize h.geometry.l2Slots) false) } := by
  obtain rfl := lineAt_of_getElem? hl
  exact if_neg (mt Line.hits_iff.1 miss)

theorem Hierarchy.accessInstruction_of_hit
    (hl : h.l1i[cacheIndex a h.geometry.blockSize h.geometry.l1iSlots]? = some l)
    (hit : l.valid = true ∧ l.tag = cacheTag a h.geometry.blockSize h.geometry.l1iSlots) : h.accessInstruction a = h := by
  obtain rfl := lineAt_of_getElem? hl
  exact if_pos (Line.hits_iff.2 hit)

theorem Hierarchy.accessInstruction_of_miss
    (hl : h.l1i[cacheIndex a h.geometry.blockSize h.geometry.l1iSlots]? = some l)
    (miss : ¬(l.valid = true ∧ l.tag = cacheTag a h.geometry.blockSize h.geometry.l1iSlots)) :
    h.accessInstruction a =
      { h with
        iMiss := h.iMiss + 1
        l1i := h.l1i.set (cacheIndex a h.geometry.blockSize h.geometry.l1iSlots)
          (freshLine (cacheTag a h.geometry.blockSize h.geometry.l1iSlots) false) }.checkL2 a := by
  obtain rfl := lineAt_of_getElem? hl
  exact if_neg (mt Line.hits_iff.1 miss)

theorem Hierarchy.accessData_of_hit
    (hl : h.l1d[cacheIndex a h.geometry.blockSize h.geometry.l1dSlots]? = some l)
    (hit : l.valid = true ∧ l.tag = cacheTag a h.geometry.blockSize h.geometry.l1dSlots) (isStore : Bool) :
    h.accessData a isStore =
      if isStore then
        { h with l1d := h.l1d.set (cacheIndex a h.geometry.blockSize h.geometry.l1dSlots) { l with dirty := true } }
      else h := by
  obtain rfl := lineAt_of_getElem? hl
  exact if_pos (Line.hits_iff.2 hit)

theorem Hierarchy.accessData_of_miss
    (hl : h.l1d[cacheIndex a h.geometry.blockSize h.geometry.l1dSlots]? = some l)
    (miss : ¬(l.valid = true ∧ l.tag = cacheTag a h.geometry.blockSize h.geometry.l1dSlots)) (isStore : Bool) :
    h.accessData a isStore =
      { h with
        dMiss := h.dMiss + 1
        writebacks := if l.valid = true ∧ l.dirty = true then h.writebacks + 1 else h.writebacks
        l1d := h.l1d.set (cacheIndex a h.geometry.blockSize h.geometry.l1dSlots)
          (freshLine (cacheTag a h.geometry.blockSize h.geometry.l1dSlots) isStore) }.checkL2 a := by
  obtain rfl := lineAt_of_getElem? hl
  rw [writebacks_of_miss]
  exact if_neg (mt Line.hits_iff.1 miss)

end

/-- Settles O60: in a well-formed hierarchy each array has the address's slot, and the line in it decides between the hit's and the
miss's equation. -/
theorem cacheOperationsActAsStatedOnHitAndMiss : Obligations.CacheOperationsActAsStatedOnHitAndMiss := by
  intro h a hwf
  obtain ⟨hI, hD, h2⟩ := Hierarchy.wf_index_lt hwf a
  have lineI := getElem?_eq_lineAt hI
  have lineD := getElem?_eq_lineAt hD
  have line2 := getElem?_eq_lineAt h2
  refine ⟨⟨_, lineI, ?_, ?_⟩, ⟨_, lineD, fun hit => ⟨?_, ?_⟩, fun isStore miss => ?_⟩, ⟨_, line2, ?_, ?_⟩⟩
  · exact Hierarchy.accessInstruction_of_hit lineI
  · exact Hierarchy.accessInstruction_of_miss lineI
  · exact Hierarchy.accessData_of_hit lineD hit false
  · exact Hierarchy.accessData_of_hit lineD hit true
  · exact Hierarchy.accessData_of_miss lineD miss isStore
  · exact Hierarchy.checkL2_of_hit line2
  · exact Hierarchy.checkL2_of_miss line2

/-! ## The cache accesses of a step, R155 and R223 -/

/-- An execution issues one data access at most. -/
theorem ExecShape.cache_eq_or_accessData {i : Instr} {s t : State} (h : ExecShape i s t) :
    t.cache = s.cache ∨ ∃ a isStore, t.cache = s.cache.accessData a isStore := by
  cases h with
  | load | store => exact .inr ⟨_, _, rfl⟩
  | _ => exact .inl rfl

/-- So does acting on a decoder's answer: an UNKNOWN word issues none (R180). -/
theorem DecodedShape.cache_eq_or_accessData {d : Decoded} {s t : State} (h : DecodedShape s d t) :
    t.cache = s.cache ∨ ∃ a isStore, t.cache = s.cache.accessData a isStore := by
  cases h with
  | unknown => exact .inl rfl
  | instr i _ hi => exact hi.cache_eq_or_accessData

/-- A step issues no access, or the fetch's, or the fetch's and then one data access. -/
theorem StepShape.cache_cases {s t : State} (h : StepShape s t) :
    t.cache = s.cache ∨ t.cache = s.instructionEvent.cache
      ∨ ∃ a isStore, t.cache = s.instructionEvent.cache.accessData a isStore := by
  cases h with
  | stay | halt => exact .inl rfl
  | execute e u _ _ _ _ hu =>
    rw [State.retire_cache]
    exact .inr hu.cache_eq_or_accessData

/-! ## The cost, R202 -/

theorem Hierarchy.two_mul_cost (h : Hierarchy) : 2 * h.cost = h.twiceCost := by
  simp only [Hierarchy.cost, Hierarchy.twiceCost]
  push_cast
  ring

theorem Hierarchy.cost_nonneg (h : Hierarchy) : 0 ≤ h.cost := by
  unfold Hierarchy.cost
  positivity

/-- Costs compare as the integers twice as large do (the spec's D28). -/
theorem Hierarchy.cost_le_cost_iff {h k : Hierarchy} : h.cost ≤ k.cost ↔ h.twiceCost ≤ k.twiceCost := by
  rw [← Nat.cast_le (α := Rat), ← two_mul_cost, ← two_mul_cost, mul_le_mul_iff_right₀ two_pos]

theorem Hierarchy.twiceCost_le_checkL2 (h : Hierarchy) (a : Nat) : h.twiceCost ≤ (h.checkL2 a).twiceCost := by
  obtain ⟨-, -, -, hi, hd, hw, hl2, -⟩ := h.checkL2_frame a
  simp only [Hierarchy.twiceCost, hi, hd, hw]
  omega

theorem Hierarchy.twiceCost_le_accessInstruction (h : Hierarchy) (a : Nat) :
    h.twiceCost ≤ (h.accessInstruction a).twiceCost := by
  obtain e | ⟨i, t, e⟩ := h.accessInstruction_cases a <;> rw [e]
  refine le_trans ?_ (Hierarchy.twiceCost_le_checkL2 _ a)
  simp only [Hierarchy.twiceCost]
  omega

theorem Hierarchy.twiceCost_le_accessData (h : Hierarchy) (a : Nat) (isStore : Bool) :
    h.twiceCost ≤ (h.accessData a isStore).twiceCost := by
  obtain e | ⟨i, -, e⟩ | ⟨i, t, w, -, e⟩ := h.accessData_cases a isStore <;> rw [e]
  · exact le_rfl
  · refine le_trans ?_ (Hierarchy.twiceCost_le_checkL2 _ a)
    simp only [Hierarchy.twiceCost]
    omega

/-- Settles O48: the cost is half an integer that every access leaves or raises, and a step is a sequence of accesses to it. -/
theorem costIsNonNegativeAndMonotone : Obligations.CostIsNonNegativeAndMonotone := by
  refine ⟨fun h => ⟨rfl, h.two_mul_cost, h.cost_nonneg⟩, fun s t hstep => ?_⟩
  rw [Hierarchy.cost_le_cost_iff]
  have hfetch : s.cache.twiceCost ≤ s.instructionEvent.cache.twiceCost := s.cache.twiceCost_le_accessInstruction _
  obtain e | e | ⟨a, isStore, e⟩ := (step_shape hstep).cache_cases <;> rw [e]
  · exact hfetch
  · exact hfetch.trans (Hierarchy.twiceCost_le_accessData _ a isStore)

end Sys2Proof.Machine
end

section
/-!
PROOFS of the statements about the driver loop (R220 to R237): the halt check, which decoder's answers are advanced past, the advance
and the retiring of an execution as the statements say them, and then the whole step and its record.
-/

namespace Sys2Proof.Machine

/-! ## The halt check, R221 -/

theorem pcOutOfRange_eq_true_iff {s : State} :
    s.pcOutOfRange = true ↔ sint (s.readReg 15) < 0 ∨ sint (s.readReg 15) ≥ totalBytes s.store :=
  decide_eq_true_iff

theorem step_of_pcOutOfRange {s : State} (hrun : s.run = .running) (hpc : s.pcOutOfRange = true) : step s = .next s.halt := by
  simp [step, hrun, hpc]

/-- A halted machine emits no record, and neither does a step the halt check stops (R221, R228). -/
theorem traceRecord_of_halted_or_pcOutOfRange {s : State} (h : s.run = .halted ∨ s.pcOutOfRange = true) :
    s.traceRecord = none :=
  if_pos h

/-- Settles O8: what the halt check stops is answered by halting alone. -/
theorem haltCheckStopsOutsideTheProgram : Obligations.HaltCheckStopsOutsideTheProgram := by
  intro s hrun hout
  have hpc : s.pcOutOfRange = true := pcOutOfRange_eq_true_iff.2 hout
  exact ⟨step_of_pcOutOfRange hrun hpc, traceRecord_of_halted_or_pcOutOfRange (.inr hpc)⟩

/-! ## B and BX against the rest, R226 and R227 -/

/-- The driver loop's list of the instructions it does not advance after is the statements' list of branches. -/
theorem setsPc_eq_isBranch (i : Instr) : Instr.setsPc i = isBranch i := by
  cases i <;> rfl

theorem Decoded.setsPc_eq_false_iff {d : Decoded} :
    Decoded.setsPc d = false ↔ ∀ i, d = .instr i → isBranch i = false := by
  cases d with
  | unknown => simp [Decoded.setsPc]
  | instr i => simp [Decoded.setsPc, setsPc_eq_isBranch]

/-- An execution writes the program counter only as a branch: a result or a load with destination 15 faults instead (R122). -/
theorem ExecShape.readReg_pc_eq {i : Instr} {s t : State} (h : ExecShape i s t) (hi : isBranch i = false) :
    t.readReg 15 = s.readReg 15 := by
  cases h with
  | result rd x hrd => exact s.readReg_writeResult_of_ne x hrd.symm
  | load rd rn imm _ hrd => exact s.readReg_writeReg_of_ne _ hrd.symm
  | jump off x hb => subst hb; cases hi
  | exchange rm x m hbx => obtain rfl | rfl := hbx <;> cases hi
  | fault | flags | store => rfl

section
variable {d : Decoded} {s t : State}

theorem DecodedShape.readReg_pc_eq (h : DecodedShape s d t) (hd : Decoded.setsPc d = false) :
    t.readReg 15 = s.readReg 15 := by
  cases h with
  | unknown => rfl
  | instr i t hshape => exact hshape.readReg_pc_eq ((setsPc_eq_isBranch i).symm.trans hd)

theorem DecodedShape.mode_eq (h : DecodedShape s d t) (hd : Decoded.setsPc d = false) : t.mode = s.mode := by
  cases h with
  | unknown => rfl
  | instr i t hshape => exact hshape.mode_eq (isBranchExchange_of_setsPc hd)

end

/-! ## The advance and the retiring of an execution, R226 -/

theorem State.advance_of_mode_eq {s : State} {m : Mode} (hmode : s.mode = m) :
    s.advance = { s with regs := s.regs.set 15 (s.readReg 15 + (if m = .wide then 4#32 else 2#32)) } := by
  rw [← ofNat_stepBytes, ← hmode]
  rfl

theorem State.readReg_pc_advance (s : State) :
    s.advance.readReg 15 = s.readReg 15 + (if s.mode = .wide then 4#32 else 2#32) := by
  rw [← ofNat_stepBytes]
  exact s.pc_setPc _

theorem State.retire_instr (i : Instr) (s : State) : s.retire (.instr i) = if isBranch i then s else s.advance := by
  rw [State.retire, Decoded.setsPc, setsPc_eq_isBranch]

theorem State.retire_of_not_setsPc {d : Decoded} (hd : Decoded.setsPc d = false) (s : State) : s.retire d = s.advance :=
  if_neg (by simp [hd])

/-- Retiring changes the registers alone, and of those the program counter alone. -/
theorem State.readReg_retire_of_ne (d : Decoded) (s : State) {q : Reg} (hq : q ≠ 15) :
    (s.retire d).readReg q = s.readReg q := by
  obtain h | h := s.retire_cases d <;> rw [h]
  exact s.readReg_setPc_of_ne _ hq

theorem State.flags_retire (d : Decoded) (s : State) :
    (s.retire d).z = s.z ∧ (s.retire d).n = s.n ∧ (s.retire d).c = s.c ∧ (s.retire d).v = s.v := by
  obtain h | h := s.retire_cases d <;> rw [h] <;> exact ⟨rfl, rfl, rfl, rfl⟩

/-! ## The whole step of a fetched entry, R222 to R227 -/

/-- A fetched entry's step is its decoded answer's execution, of a known shape, and then the retiring of that. -/
theorem exists_execution_of_fetches {s : State} {e : Entry} (hfetch : s.fetches e) :
    ∃ u, execDecoded (decode s.mode e.word) s.instructionEvent = .next u
      ∧ DecodedShape s.instructionEvent (decode s.mode e.word) u ∧ step s = .next (u.retire (decode s.mode e.word)) := by
  obtain ⟨u, hexec, hshape⟩ := execDecoded_shape (decode s.mode e.word) s.instructionEvent
  exact ⟨u, hexec, hshape, step_eq_retire_of_fetches hfetch rfl hexec⟩

/-- Settles O43: what is no branch leaves the mode and the program counter to the advance. -/
theorem onlyBranchesLeaveTheSequence : Obligations.OnlyBranchesLeaveTheSequence := by
  intro s t e hfetch hno hstep
  have hd : Decoded.setsPc (decode s.mode e.word) = false := Decoded.setsPc_eq_false_iff.2 hno
  obtain ⟨u, -, hshape, hstepu⟩ := exists_execution_of_fetches hfetch
  have hmode : u.mode = s.mode := hshape.mode_eq hd
  have hpc : u.readReg 15 = s.readReg 15 := hshape.readReg_pc_eq hd
  rw [u.retire_of_not_setsPc hd] at hstepu
  cases hstepu.symm.trans hstep
  refine ⟨hmode, ?_⟩
  rw [u.readReg_pc_advance, hpc, hmode]

/-- Settles O6: the mode the advance reads is the fetch's, as an instruction that is advanced past leaves the mode. -/
theorem stepRunsTheDecodedInstruction : Obligations.StepRunsTheDecodedInstruction := by
  intro s e hfetch h
  refine ⟨fun i hdecode => ?_, fun hdecode => (unknownWordIsANoOp s e hfetch hdecode).1⟩
  obtain ⟨u, hexec, hshape⟩ := exec_shape i h
  rw [step_eq_retire_of_fetches hfetch hdecode hexec, u.retire_instr, hexec]
  cases hbranch : isBranch i with
  | true => rfl
  | false =>
    have hsets : Instr.setsPc i = false := (setsPc_eq_isBranch i).trans hbranch
    have hmode : u.mode = s.mode := hshape.mode_eq (isBranchExchange_of_setsPc hsets)
    exact congrArg Host.Outcome.next (State.advance_of_mode_eq hmode)

/-! ## The record of a step, R237 -/

/-- Before the advance the program counter is a branch's target, or still the one of the fetch. -/
theorem ExecShape.readReg_pc_eq_ite {i : Instr} {s u : State} (h : ExecShape i s u) :
    u.readReg 15 = if isBranch i then (u.retire (.instr i)).readReg 15 else s.readReg 15 := by
  rw [u.retire_instr]
  cases hbranch : isBranch i with
  | true => rfl
  | false => exact h.readReg_pc_eq hbranch

/-- Settles O50: the record is read off the state the execution left, which the retiring changes in the program counter alone. -/
theorem traceRecordsTheExecutedInstruction : Obligations.TraceRecordsTheExecutedInstruction := by
  refine ⟨fun s h => ?_, fun s e hfetch => ?_⟩
  · exact traceRecord_of_halted_or_pcOutOfRange (h.imp_right pcOutOfRange_eq_true_iff.2)
  · obtain ⟨u, hexec, hshape, hstep⟩ := exists_execution_of_fetches hfetch
    obtain ⟨hz, hn, hc, hv⟩ := u.flags_retire (decode s.mode e.word)
    refine ⟨traceOf s e u, _, traceRecord_of_fetches hfetch rfl hexec, hstep, rfl, rfl, rfl,
      fun q hq => (u.readReg_retire_of_ne _ hq).symm, hz.symm, hn.symm, hc.symm, hv.symm, fun i hdecode => ?_,
      fun hdecode => ?_⟩
    · have hdecoded : s.decodeEntry e = .instr i := hdecode
      rw [hdecode] at hshape ⊢
      rw [traceOf, hdecoded]
      cases hshape with
      | instr _ _ hi => exact ⟨rfl, rfl, hi.readReg_pc_eq_ite⟩
    · have hdecoded : s.decodeEntry e = .unknown := hdecode
      have hpc : u.readReg 15 = s.readReg 15 := hshape.readReg_pc_eq (by rw [hdecode]; rfl)
      rw [traceOf, hdecoded]
      exact ⟨rfl, rfl, hpc⟩

end Sys2Proof.Machine
end

section
/-!
PROOFS of the statements about faults (R240 to R250): which instruction raises which fault, what an execution and a step that raise one
do, and which geometries `configure` refuses.
-/

namespace Sys2Proof.Machine

/-! ## Which instruction raises which fault, R241 to R245 -/

theorem destFault_eq_some_iff {rd : Reg} {f : RuntimeFault} : destFault rd = some f ↔ rd = 15 ∧ f = .pcWrite 15 := by
  by_cases h : rd = 15
  · subst h
    simp [destFault_of_pc rfl, eq_comm]
  · simp [destFault_of_ne h, h]

theorem addressFault_eq_some_iff {ea : Int} {f : RuntimeFault} :
    addressFault ea = some f ↔ (ea < 0 ∨ 4096 ≤ ea) ∧ f = .memRange ea := by
  by_cases h : ea < 0 ∨ 4096 ≤ ea
  · simp [addressFault_of_outOfRange h, h, eq_comm]
  · obtain ⟨h0, h1⟩ := not_or.1 h
    simp [addressFault_of_inRange (Int.not_lt.1 h0) (Int.not_le.1 h1), h]

/-- A load checks its destination first: a destination of 15 hides the address (R245). -/
theorem ldrFault_eq_some_iff {rd rn : Reg} {imm : BitVec 8} {s : State} {f : RuntimeFault} :
    ldrFault rd rn imm s = some f ↔
      destFault rd = some f ∨ rd ≠ 15 ∧ addressFault (s.effectiveAddress rn imm) = some f := by
  rw [ldrFault, Option.or_eq_some_iff, destFault_eq_none]

theorem faultRaised_eq_pcWrite_iff (i : Instr) (s : State) (r : Reg) :
    faultRaised i s = some (.pcWrite r) ↔ r = 15 ∧ isBranch i = false ∧ writtenReg i = some 15 := by
  have hdest : ∀ rd, destFault rd = some (.pcWrite r) ↔ r = 15 ∧ rd = 15 := fun rd => by
    rw [destFault_eq_some_iff, RuntimeFault.pcWrite.injEq, and_comm]
  have haddr : ∀ ea, addressFault ea ≠ some (.pcWrite r) := fun ea => by
    simp [addressFault_eq_some_iff]
  cases i with
  | and | eor | sub | add | orr | mov => simp [faultRaised, hdest, isBranch, writtenReg]
  | ldr rd rn imm => simp [faultRaised, ldrFault_eq_some_iff, hdest, haddr, isBranch, writtenReg]
  | str rd rn imm => simp [faultRaised, strFault, haddr, writtenReg]
  | cmp => simp [faultRaised, writtenReg]
  | b | bx | cBx => simp [faultRaised, isBranch]
  | cLsl rd | cAdd rd | cSub rd | cMov rd => simp [faultRaised, writtenReg, lowReg_ne_pc rd]

theorem faultRaised_eq_memRange_iff (i : Instr) (s : State) (ea : Int) :
    faultRaised i s = some (.memRange ea) ↔
      (ea < 0 ∨ 4096 ≤ ea)
      ∧ ((∃ rd rn imm, i = .ldr rd rn imm ∧ rd ≠ 15 ∧ ea = s.effectiveAddress rn imm)
        ∨ (∃ rd rn imm, i = .str rd rn imm ∧ ea = s.effectiveAddress rn imm)) := by
  have hdest : ∀ rd, destFault rd ≠ some (.memRange ea) := fun rd => by
    simp [destFault_eq_some_iff]
  have haddr : ∀ a, addressFault a = some (.memRange ea) ↔ (ea < 0 ∨ 4096 ≤ ea) ∧ ea = a := fun a => by
    rw [addressFault_eq_some_iff, RuntimeFault.memRange.injEq]
    exact and_congr_left (fun h => by rw [h])
  cases i with
  | ldr rd rn imm => simp [faultRaised, ldrFault_eq_some_iff, hdest, haddr, and_left_comm]
  | str rd rn imm => simp [faultRaised, strFault, haddr]
  | and | eor | sub | add | orr | mov => simp [faultRaised, hdest]
  | cmp | b | bx | cLsl | cAdd | cSub | cMov | cBx => simp [faultRaised]

/-- Settles O40: the table of R241 by its definitions, and the two causes by the checks the instructions make. -/
theorem faultsAreRaisedExactlyWhenStated : Obligations.FaultsAreRaisedExactlyWhenStated := by
  refine ⟨fun _ => ⟨rfl, rfl⟩, fun _ => ⟨rfl, rfl⟩, fun i s => ⟨?_, ?_⟩⟩
  · exact faultRaised_eq_pcWrite_iff i s
  · exact faultRaised_eq_memRange_iff i s

/-! ## What a fault leaves unchanged, R243 -/

/-- Only the faulting shape of an execution touches the latch. -/
theorem ExecShape.flt_eq {i : Instr} {s t : State} (h : ExecShape i s t) (hnone : faultRaised i s = none) :
    t.flt = s.flt := by
  cases h with
  | fault f hf => cases hf.symm.trans hnone
  | _ => rfl

/-- The fetched instruction that raises a fault executes to its latch bit and nothing else, after the fetch's access. -/
theorem execDecoded_of_faultRaised {i : Instr} {s : State} {f : RuntimeFault} (h : faultRaised i s = some f) :
    execDecoded (.instr i) s.instructionEvent = .next (s.instructionEvent.latchFault f) :=
  exec_of_faultRaised ((faultRaised_instructionEvent i s).trans h)

/-- No branch raises a fault, so what does is advanced past. -/
theorem State.retire_of_faultRaised {i : Instr} {s : State} {f : RuntimeFault} (h : faultRaised i s = some f) (u : State) :
    u.retire (.instr i) = u.advance := by
  rw [u.retire_instr, isBranch_of_fault h]
  rfl

theorem traceOf_fault {s : State} {e : Entry} {i : Instr} (hdecode : decode s.mode e.word = .instr i) (u : State) :
    (traceOf s e u).fault = faultRaised i s := by
  have hdecoded : s.decodeEntry e = .instr i := hdecode
  rw [traceOf, hdecoded]
  rfl

/-- Settles O39: the execution is the latching alone, and the step adds to it the fetch's access and the advance. -/
theorem faultingInstructionIsAbandoned : Obligations.FaultingInstructionIsAbandoned := by
  intro i s
  refine ⟨fun ea h => exec_of_faultRaised h, fun r h => exec_of_faultRaised h,
    fun hnone t hexec => (ExecShape.of_exec hexec).flt_eq hnone, fun e f hfetch hdecode hfault => ?_⟩
  have hexec := execDecoded_of_faultRaised hfault
  refine ⟨?_, _, traceRecord_of_fetches hfetch hdecode hexec, (traceOf_fault hdecode _).trans hfault⟩
  have hstep := step_eq_retire_of_fetches hfetch hdecode hexec
  rw [State.retire_of_faultRaised hfault] at hstep
  exact hstep.trans (congrArg Host.Outcome.next (State.advance_of_mode_eq rfl))

/-! ## The geometries `configure` accepts, R8 and R250 -/

theorem isPowerOfTwo_iff {n : Nat} : isPowerOfTwo n = true ↔ ∃ k, n = 2 ^ k := by
  rw [isPowerOfTwo, beq_iff_eq]
  constructor
  · exact fun h => ⟨n.log2, h.symm⟩
  · rintro ⟨k, rfl⟩
    rw [Nat.log2_two_pow]

theorem Geometry.legal_iff {g : Geometry} :
    g.legal = true ↔
      (∃ a b c d e : Nat, g.blockSize = 2 ^ a ∧ g.l1iCapacity = 2 ^ b ∧ g.l1dCapacity = 2 ^ c ∧ g.l2BlockSize = 2 ^ d
          ∧ g.l2Capacity = 2 ^ e)
        ∧ g.blockSize ≤ g.l1iCapacity ∧ g.blockSize ≤ g.l1dCapacity ∧ g.l2BlockSize ≤ g.l2Capacity := by
  simp only [Geometry.legal, Bool.and_eq_true, decide_eq_true_eq, isPowerOfTwo_iff, exists_and_left, exists_and_right,
    and_assoc]

theorem configure_ok_iff {g : Geometry} : (∃ h, configure g = .ok h) ↔ g.legal = true := by
  unfold configure
  split
  · next hlegal => exact iff_of_true ⟨_, rfl⟩ hlegal
  · next hillegal => exact iff_of_false (fun ⟨_, h⟩ => by cases h) hillegal

/-- Settles O57: `configure` accepts what the model's check passes, and the check is the constraints of R8. -/
theorem configureAcceptsExactlyLegalGeometries : Obligations.ConfigureAcceptsExactlyLegalGeometries :=
  fun _ => configure_ok_iff.trans Geometry.legal_iff

end Sys2Proof.Machine
end

section
/-!
PROOFS of the statements about every step: what an execution and a step leave alone, that the step is total, that it keeps the
machine's invariant, and that the processor never sees the caches (R6, R27 to R37, R155, R180, R206, R220 to R228).
-/

namespace Sys2Proof.Machine

/-! ## Three ways a step can go, R220 -/

/-- A byte offset inside the program has its entry (R52). -/
theorem exists_entry_of_lt_totalBytes {is : List Entry} {p : Nat} (hp : p < totalBytes is) :
    ∃ e k, resolve is p = some k ∧ is[k]? = some e := by
  obtain ⟨k, e, hk, he, -⟩ := resolveFindsTheOneCoveringEntry.1 is p hp
  exact ⟨e, k, hk, he⟩

/-- A machine is halted, or is about to halt, or fetches an entry. -/
theorem halted_or_pcOutOfRange_or_fetches (s : State) :
    s.run = .halted ∨ (s.run = .running ∧ s.pcOutOfRange = true) ∨ ∃ e, s.fetches e := by
  cases hrun : s.run with
  | halted => exact .inl rfl
  | running =>
    cases hpc : s.pcOutOfRange with
    | true => exact .inr (.inl ⟨rfl, rfl⟩)
    | false =>
      obtain ⟨hlo, hhi⟩ := not_or.1 (of_decide_eq_false hpc)
      have hlo' : 0 ≤ sint (s.readReg 15) := Int.not_lt.1 hlo
      have hhi' : sint (s.readReg 15) < totalBytes s.store := Int.not_le.1 hhi
      have hp : (sint (s.readReg 15)).toNat < totalBytes s.store := by omega
      obtain ⟨e, hentry⟩ := exists_entry_of_lt_totalBytes hp
      exact .inr (.inr ⟨e, hrun, hlo', hhi', hentry⟩)

theorem step_of_halted {s : State} (hrun : s.run = .halted) : step s = .next s := by
  simp [step, hrun]

/-- Settles O5: a halted machine stays, one out of range halts, and a fetched entry's execution answers a next state. -/
theorem stepAlwaysAnswersNext : Obligations.StepAlwaysAnswersNext := by
  intro s
  obtain hrun | ⟨hrun, hpc⟩ | ⟨e, hfetch⟩ := halted_or_pcOutOfRange_or_fetches s
  · exact ⟨_, step_of_halted hrun⟩
  · exact ⟨_, step_of_pcOutOfRange hrun hpc⟩
  · obtain ⟨u, -, -, hstep⟩ := exists_execution_of_fetches hfetch
    exact ⟨_, hstep⟩

/-- Settles O10: a halted machine's step is the state itself, and the record is asked for the run state first. -/
theorem haltedMachineStaysAsItIs : Obligations.HaltedMachineStaysAsItIs := by
  intro s hrun
  exact ⟨step_of_halted hrun, traceRecord_of_halted_or_pcOutOfRange (.inl hrun)⟩

/-! ## What no execution and no step changes: the run state but for halting, the store, C and V -/

theorem ExecShape.fixed_fields {i : Instr} {s t : State} (h : ExecShape i s t) :
    t.run = s.run ∧ t.store = s.store ∧ t.c = s.c ∧ t.v = s.v := by
  cases h <;> exact ⟨rfl, rfl, rfl, rfl⟩

theorem DecodedShape.fixed_fields {d : Decoded} {s t : State} (h : DecodedShape s d t) :
    t.run = s.run ∧ t.store = s.store ∧ t.c = s.c ∧ t.v = s.v := by
  cases h with
  | unknown => exact ⟨rfl, rfl, rfl, rfl⟩
  | instr i t hshape => exact hshape.fixed_fields

@[simp] theorem State.retire_run (d : Decoded) (s : State) : (s.retire d).run = s.run := by
  obtain h | h := s.retire_cases d <;> simp [h]

@[simp] theorem State.retire_store (d : Decoded) (s : State) : (s.retire d).store = s.store := by
  obtain h | h := s.retire_cases d <;> simp [h]

@[simp] theorem State.retire_mem (d : Decoded) (s : State) : (s.retire d).mem = s.mem := by
  obtain h | h := s.retire_cases d <;> simp [h]

@[simp] theorem State.retire_flt (d : Decoded) (s : State) : (s.retire d).flt = s.flt := by
  obtain h | h := s.retire_cases d <;> simp [h]

theorem StepShape.fixed_fields {s t : State} (h : StepShape s t) : t.store = s.store ∧ t.c = s.c ∧ t.v = s.v := by
  cases h with
  | stay | halt => exact ⟨rfl, rfl, rfl⟩
  | execute e u _ _ _ _ hu =>
    obtain ⟨-, hstore, hc, hv⟩ := hu.fixed_fields
    obtain ⟨-, -, hc', hv'⟩ := u.flags_retire (s.decodeEntry e)
    exact ⟨(u.retire_store _).trans hstore, hc'.trans hc, hv'.trans hv⟩

/-- A step that ends halted is no execution: the machine was halted before, or its program counter was out of range. -/
theorem StepShape.of_run_halted {s t : State} (h : StepShape s t) (ht : t.run = .halted) :
    (s.run = .halted ∧ t = s) ∨ (s.pcOutOfRange = true ∧ t = s.halt) := by
  cases h with
  | stay hrun => exact .inl ⟨hrun, rfl⟩
  | halt _ hpc => exact .inr ⟨hpc, rfl⟩
  | execute e u hrun _ _ _ hu =>
    have hu_run : u.run = s.run := hu.fixed_fields.1
    rw [State.retire_run, hu_run, hrun] at ht
    cases ht

/-- Settles O9: only the halt check halts, and out of range it does. -/
theorem runEndsOnlyAtTheHaltCheck : Obligations.RunEndsOnlyAtTheHaltCheck := by
  intro s t hrun hstep
  rw [← pcOutOfRange_eq_true_iff]
  constructor
  · intro ht
    obtain ⟨hhalted, -⟩ | ⟨hpc, -⟩ := (step_shape hstep).of_run_halted ht
    · cases hrun.symm.trans hhalted
    · exact hpc
  · intro hpc
    cases (step_of_pcOutOfRange hrun hpc).symm.trans hstep
    rfl

/-! ## The fault latch, R30 -/

theorem ExecShape.flt_eq_or {i : Instr} {s t : State} (h : ExecShape i s t) : ∃ b, t.flt = s.flt ||| b := by
  cases h with
  | fault f => exact ⟨f.latchBit, rfl⟩
  | _ => exact ⟨0#2, BitVec.or_zero.symm⟩

theorem DecodedShape.flt_eq_or {d : Decoded} {s t : State} (h : DecodedShape s d t) : ∃ b, t.flt = s.flt ||| b := by
  cases h with
  | unknown => exact ⟨0#2, BitVec.or_zero.symm⟩
  | instr i _ hshape => exact hshape.flt_eq_or

theorem StepShape.flt_eq_or {s t : State} (h : StepShape s t) : ∃ b, t.flt = s.flt ||| b := by
  cases h with
  | stay | halt => exact ⟨0#2, BitVec.or_zero.symm⟩
  | execute e u _ _ _ _ hu =>
    rw [State.retire_flt]
    exact hu.flt_eq_or

theorem bitVec_and_or_self {n : Nat} (a b : BitVec n) : a &&& (a ||| b) = a := by
  ext k
  simp +contextual

/-- Settles O41: a step only ever joins bits to the latch. -/
theorem faultLatchIsSticky : Obligations.FaultLatchIsSticky := by
  intro s t hstep
  obtain ⟨b, hflt⟩ := (step_shape hstep).flt_eq_or
  rw [hflt, bitVec_and_or_self]

/-! ## Main memory, R33 and R242 -/

/-- An execution leaves main memory, or is a store in range, which writes one word of it. -/
theorem ExecShape.mem_cases {i : Instr} {s t : State} (h : ExecShape i s t) :
    t.mem = s.mem ∨ ∃ rd rn imm, i = .str rd rn imm ∧ 0 ≤ s.effectiveAddress rn imm ∧ s.effectiveAddress rn imm < 4096
      ∧ t.mem = s.mem.setWord ((s.effectiveAddress rn imm).toNat / 4) (s.readReg rd) := by
  cases h with
  | store rd rn imm hi h0 h1 => exact .inr ⟨rd, rn, imm, hi, h0, h1, rfl⟩
  | _ => exact .inl rfl

/-- A step leaves main memory, or executes a store in range. -/
theorem StepShape.mem_cases {s t : State} (h : StepShape s t) :
    t.mem = s.mem ∨ ∃ e rd rn imm, s.fetches e ∧ decode s.mode e.word = .instr (.str rd rn imm)
      ∧ 0 ≤ s.effectiveAddress rn imm ∧ s.effectiveAddress rn imm < 4096
      ∧ t.mem = s.mem.setWord ((s.effectiveAddress rn imm).toNat / 4) (s.readReg rd) := by
  cases h with
  | stay | halt => exact .inl rfl
  | execute e u hrun hpc hfetch _ hu =>
    rw [State.retire_mem]
    generalize hd : s.decodeEntry e = d at hu
    cases hu with
    | unknown => exact .inl rfl
    | instr i _ hshape =>
      obtain hmem | ⟨rd, rn, imm, rfl, h0, h1, hmem⟩ := hshape.mem_cases
      · exact .inl hmem
      · exact .inr ⟨e, rd, rn, imm, fetches_of_fetchEntry hrun hpc hfetch, hd, h0, h1, hmem⟩

/-- Settles O45: the one way a step changes main memory is the store in range. -/
theorem memoryChangesOnlyByAnInRangeStore : Obligations.MemoryChangesOnlyByAnInRangeStore := by
  intro s t hstep hne
  obtain hmem | ⟨e, rd, rn, imm, hfetch, hdecode, h0, h1, -⟩ := (step_shape hstep).mem_cases
  · exact absurd hmem hne
  · exact ⟨e, rd, rn, imm, hfetch, hdecode, h0, h1⟩

/-- A step keeps the canonical form: the word a store writes lies in the data space. -/
theorem StepShape.wf_mem {s t : State} (h : StepShape s t) (hm : s.mem.wf) : t.mem.wf := by
  obtain hmem | ⟨e, rd, rn, imm, -, -, h0, h1, hmem⟩ := h.mem_cases <;> rw [hmem]
  · exact hm
  · refine Memory.wf_setWord hm ?_ _
    rw [memWords]
    omega

/-! ## The cache hierarchy, R155, R196, R198 and R223 -/

/-- The instruction side of an access: it leaves the data cache and its counters, and counts one miss of each level at most. -/
theorem Hierarchy.accessInstruction_frame (h : Hierarchy) (a : Nat) :
    (h.accessInstruction a).geometry = h.geometry ∧ (h.accessInstruction a).dMiss = h.dMiss
      ∧ (h.accessInstruction a).writebacks = h.writebacks
      ∧ h.iMiss ≤ (h.accessInstruction a).iMiss ∧ (h.accessInstruction a).iMiss ≤ h.iMiss + 1
      ∧ h.l2Miss ≤ (h.accessInstruction a).l2Miss ∧ (h.accessInstruction a).l2Miss ≤ h.l2Miss + 1 := by
  obtain e | ⟨i, t, e⟩ := h.accessInstruction_cases a <;> rw [e]
  · simp
  · obtain ⟨hg, -, -, hi, hd, hw, hlo, hhi⟩ :=
      Hierarchy.checkL2_frame { h with iMiss := h.iMiss + 1, l1i := h.l1i.set i (freshLine t false) } a
    exact ⟨hg, hd, hw, Nat.le_of_succ_le hi.ge, hi.le, hlo, hhi⟩

/-- The data side of an access: it leaves the instruction cache and its counter, and counts one event of each kind at most. -/
theorem Hierarchy.accessData_frame (h : Hierarchy) (a : Nat) (isStore : Bool) :
    (h.accessData a isStore).geometry = h.geometry ∧ (h.accessData a isStore).l1i = h.l1i
      ∧ (h.accessData a isStore).iMiss = h.iMiss
      ∧ h.dMiss ≤ (h.accessData a isStore).dMiss ∧ (h.accessData a isStore).dMiss ≤ h.dMiss + 1
      ∧ h.writebacks ≤ (h.accessData a isStore).writebacks ∧ (h.accessData a isStore).writebacks ≤ h.writebacks + 1
      ∧ h.l2Miss ≤ (h.accessData a isStore).l2Miss ∧ (h.accessData a isStore).l2Miss ≤ h.l2Miss + 1 := by
  obtain e | ⟨i, -, e⟩ | ⟨i, t, w, hw1, e⟩ := h.accessData_cases a isStore <;> rw [e]
  · simp
  · simp
  · obtain ⟨hg, hl1i, -, hi, hd, hw, hlo, hhi⟩ :=
      Hierarchy.checkL2_frame
        { h with dMiss := h.dMiss + 1, writebacks := h.writebacks + w, l1d := h.l1d.set i (freshLine t isStore) } a
    exact ⟨hg, hl1i, hi, Nat.le_of_succ_le hd.ge, hd.le, Nat.le_trans (Nat.le_add_right _ w) hw.ge,
      hw.le.trans (Nat.add_le_add_left hw1 _), hlo, hhi⟩

theorem StepShape.cache_geometry {s t : State} (h : StepShape s t) : t.cache.geometry = s.cache.geometry := by
  have hfetch : s.instructionEvent.cache.geometry = s.cache.geometry := (s.cache.accessInstruction_frame _).1
  obtain e | e | ⟨a, isStore, e⟩ := h.cache_cases <;> rw [e]
  · exact hfetch
  · exact (Hierarchy.accessData_frame _ a isStore).1.trans hfetch

theorem StepShape.wf_cache {s t : State} (h : StepShape s t) (hc : s.cache.wf) : t.cache.wf := by
  have hfetch : s.instructionEvent.cache.wf := Hierarchy.wf_accessInstruction hc _
  obtain e | e | ⟨a, isStore, e⟩ := h.cache_cases <;> rw [e]
  · exact hc
  · exact hfetch
  · exact Hierarchy.wf_accessData hfetch a isStore

/-- Settles O44: an execution and the retiring leave the store, C and V, and no cache access leaves its geometry. -/
theorem stepNeverChangesStoreGeometryCarryOrOverflow : Obligations.StepNeverChangesStoreGeometryCarryOrOverflow := by
  intro s t hstep
  have hshape := step_shape hstep
  obtain ⟨hstore, hc, hv⟩ := hshape.fixed_fields
  exact ⟨hstore, hshape.cache_geometry, hc, hv⟩

/-- Settles O47: a step is one instruction access and one data access at most, and a step that ends halted is neither. -/
theorem countersGrowByTheStatedAmounts : Obligations.CountersGrowByTheStatedAmounts := by
  intro s t hstep
  have hshape := step_shape hstep
  have hhalted : t.run = .halted → t.cache = s.cache := fun ht => by
    obtain ⟨-, rfl⟩ | ⟨-, rfl⟩ := hshape.of_run_halted ht <;> rfl
  obtain ⟨-, hd, hw, hi0, hi1, h20, h21⟩ := s.cache.accessInstruction_frame s.pcOffset.toNat
  obtain e | e | ⟨a, isStore, e⟩ := hshape.cache_cases
  · rw [e] at hhalted ⊢
    simp
  · rw [e] at hhalted ⊢
    rw [State.instructionEvent_cache] at hhalted ⊢
    exact ⟨hi0, hi1, by omega, by omega, by omega, by omega, h20, by omega, hhalted⟩
  · obtain ⟨-, -, hi, hd0, hd1, hw0, hw1, k20, k21⟩ := s.instructionEvent.cache.accessData_frame a isStore
    rw [e] at hhalted ⊢
    rw [State.instructionEvent_cache] at hhalted hi hd0 hd1 hw0 hw1 k20 k21 ⊢
    exact ⟨by omega, by omega, by omega, by omega, by omega, by omega, by omega, by omega, hhalted⟩

/-! ## The machine's invariant -/

/-- Settles O3: each part of the invariant is kept by every shape of a step, and a step that ends halted leaves the program counter
and the program the halt check looked at. -/
theorem stepKeepsTheInvariant : Obligations.StepKeepsTheInvariant := by
  intro s t hs hstep
  obtain ⟨hmem, hprogram, hc, hv, hcache, hhalted⟩ := hs
  have hshape := step_shape hstep
  obtain ⟨hstore, hc', hv'⟩ := hshape.fixed_fields
  refine ⟨hshape.wf_mem hmem, hstore ▸ hprogram, hc'.trans hc, hv'.trans hv, hshape.wf_cache hcache, fun ht => ?_⟩
  obtain ⟨hrun, rfl⟩ | ⟨hpc, rfl⟩ := hshape.of_run_halted ht
  · exact hhalted hrun
  · exact hpc

/-! ## The processor never sees the caches, R206 -/

/-- A state with its cache hierarchy exchanged for another. -/
def State.withCache (s : State) (h : Hierarchy) : State := { s with cache := h }

theorem State.sameButCache_iff {s s' : State} : s.sameButCache s' ↔ s' = s.withCache s'.cache := by
  constructor
  · intro h
    obtain ⟨hregs, hz, hn, hc, hv, hmode, hflt, hrun, hmem, hstore⟩ := h
    rw [State.withCache, hregs, hz, hn, hc, hv, hmode, hflt, hrun, hmem, hstore]
  · intro h
    rw [h]
    exact ⟨rfl, rfl, rfl, rfl, rfl, rfl, rfl, rfl, rfl, rfl⟩

theorem State.sameButCache_withCache (s : State) (h : Hierarchy) : s.sameButCache (s.withCache h) :=
  State.sameButCache_iff.2 rfl

/-- The fault checks read registers only. -/
theorem faultRaised_withCache (i : Instr) (s : State) (h : Hierarchy) : faultRaised i (s.withCache h) = faultRaised i s := by
  cases i <;> rfl

theorem State.retire_withCache (d : Decoded) (s : State) (h : Hierarchy) :
    (s.withCache h).retire d = (s.retire d).withCache h := by
  unfold State.retire
  split <;> rfl

theorem execDataProcessing_withCache {op : Word → Word → Word} {rd rn rm : Reg} {s t : State} (h : Hierarchy)
    (hexec : execDataProcessing op rd rn rm s = .next t) :
    execDataProcessing op rd rn rm (s.withCache h) = .next (t.withCache h) := by
  by_cases hrd : rd = 15
  · cases (execDataProcessing_of_pc op rn rm s hrd).symm.trans hexec
    exact execDataProcessing_of_pc op rn rm (s.withCache h) hrd
  · cases (execDataProcessing_of_ne op rn rm s hrd).symm.trans hexec
    exact execDataProcessing_of_ne op rn rm (s.withCache h) hrd

/-- An execution does the same whatever the caches hold, but for the caches it leaves. -/
theorem exec_withCache {i : Instr} {s t : State} (h : Hierarchy) (hexec : exec i s = .next t) :
    ∃ h', exec i (s.withCache h) = .next (t.withCache h') := by
  cases hfault : faultRaised i s with
  | some f =>
    cases (exec_of_faultRaised hfault).symm.trans hexec
    exact ⟨h, exec_of_faultRaised ((faultRaised_withCache i s h).trans hfault)⟩
  | none =>
    have hfault' : faultRaised i (s.withCache h) = none := (faultRaised_withCache i s h).trans hfault
    cases i with
    | and | eor | sub | add | orr => exact ⟨h, execDataProcessing_withCache h hexec⟩
    | mov rd imm =>
      have hrd : rd ≠ 15 := destFault_eq_none.1 hfault
      cases (execMov_of_ne imm s hrd).symm.trans hexec
      exact ⟨h, execMov_of_ne imm (s.withCache h) hrd⟩
    | ldr rd rn imm =>
      cases (exec_ldr_of_no_fault hfault).symm.trans hexec
      exact ⟨_, exec_ldr_of_no_fault hfault'⟩
    | str rd rn imm =>
      cases (exec_str_of_no_fault hfault).symm.trans hexec
      exact ⟨_, exec_str_of_no_fault hfault'⟩
    | cmp | b | bx | cLsl | cAdd | cSub | cMov | cBx => cases hexec; exact ⟨h, rfl⟩

theorem execDecoded_withCache {d : Decoded} {s t : State} (h : Hierarchy) (hexec : execDecoded d s = .next t) :
    ∃ h', execDecoded d (s.withCache h) = .next (t.withCache h') := by
  cases d with
  | unknown => cases hexec; exact ⟨h, rfl⟩
  | instr i => exact exec_withCache h hexec

/-- A step does the same whatever the caches hold, but for the caches it leaves. -/
theorem step_withCache (s : State) (h : Hierarchy) :
    ∃ t h', step s = .next t ∧ step (s.withCache h) = .next (t.withCache h') := by
  obtain hrun | ⟨hrun, hpc⟩ | ⟨e, hfetch⟩ := halted_or_pcOutOfRange_or_fetches s
  · exact ⟨s, h, step_of_halted hrun, step_of_halted hrun⟩
  · exact ⟨s.halt, h, step_of_pcOutOfRange hrun hpc, step_of_pcOutOfRange hrun hpc⟩
  · obtain ⟨u, hexec, -, hstep⟩ := exists_execution_of_fetches hfetch
    obtain ⟨h', hexec'⟩ := execDecoded_withCache (h.accessInstruction s.pcOffset.toNat) hexec
    have hfetch' : (s.withCache h).fetches e := hfetch
    have hstep' := step_eq_retire_of_fetches hfetch' rfl hexec'
    rw [State.retire_withCache] at hstep'
    exact ⟨_, h', hstep, hstep'⟩

/-- Settles O49: the second state is the first with its caches exchanged, and its step is the first's with the caches exchanged. -/
theorem processorNeverSeesTheCaches : Obligations.ProcessorNeverSeesTheCaches := by
  intro s s' hsame
  obtain ⟨t, h', hstep, hstep'⟩ := step_withCache s s'.cache
  rw [← State.sameButCache_iff.1 hsame] at hstep'
  exact ⟨t, _, hstep, hstep', t.sameButCache_withCache h'⟩

/-! ## ORR of register 15, R24 -/

/-- Settles O13: the disjunction of the program counter with itself is the program counter, and the advance leaves `Rd`. -/
theorem orrOfRegisterFifteenCopiesOwnAddress : Obligations.OrrOfRegisterFifteenCopiesOwnAddress := by
  intro s e rd hfetch hrd hdecode
  have hexec : execDecoded (.instr (.orr rd 15 15)) s.instructionEvent = .next (s.instructionEvent.writeResult rd _) :=
    execDataProcessing_of_ne (· ||| ·) 15 15 _ hrd
  refine ⟨_, step_eq_retire_of_fetches hfetch hdecode hexec, ?_⟩
  rw [State.readReg_retire_of_ne _ _ hrd, State.readReg_writeResult_self, State.readReg_instructionEvent, BitVec.or_self]

end Sys2Proof.Machine
end

section
/-!
PROOFS of the statements about encoding (R80 to R113): a field of a word against the word under a mask, which words the decoders read
as which rows of the opcode table, and the operands of a canonical word.
-/

namespace Sys2Proof

/-! ## A word under a mask against its fields, R102 and R113 -/

/-- A word that selects a row has the row's pattern in every field the mask covers. -/
theorem field_of_row {w mask pattern : Word} (h : w &&& mask = pattern) (lo n : Nat) {x : BitVec n}
    (hmask : mask.extractLsb' lo n = BitVec.allOnes n) (hx : pattern.extractLsb' lo n = x) : w.extractLsb' lo n = x := by
  rw [← hx, ← h, BitVec.extractLsb'_and, hmask, BitVec.and_allOnes]

theorem bit_of_row {w mask pattern : Word} (h : w &&& mask = pattern) (k : Nat) {b : Bool} (hmask : mask.getLsbD k = true)
    (hb : pattern.getLsbD k = b) : w.getLsbD k = b := by
  rw [← hb, ← h, BitVec.getLsbD_and, hmask, Bool.and_true]

theorem getLsbD_place {n : Nat} (x : BitVec n) (lo k : Nat) :
    (place x lo).getLsbD k = (decide (k < 32) && (!decide (k < lo) && x.getLsbD (k - lo))) := by
  by_cases hk : k < 32 <;> simp [place, hk]

/-- A word with the value `x` in a field is `x` in its place under the field's mask. -/
theorem row_of_field {w : Word} {n : Nat} {x : BitVec n} {lo : Nat} (h : w.extractLsb' lo n = x) :
    w &&& place (BitVec.allOnes n) lo = place x lo := by
  subst h
  refine BitVec.eq_of_getLsbD_eq fun k hk => ?_
  rw [BitVec.getLsbD_and, getLsbD_place, getLsbD_place, BitVec.getLsbD_extractLsb', BitVec.getLsbD_allOnes]
  by_cases hlo : k < lo
  · simp [hlo]
  · have hback : lo + (k - lo) = k := by omega
    simp [hk, hlo, hback, Bool.and_comm]

/-- Two patterns under two masks are one pattern under both. -/
theorem row_or {w a b c d : Word} (hc : w &&& a = c) (hd : w &&& b = d) : w &&& (a ||| b) = c ||| d := by
  rw [BitVec.and_or_distrib_left, hc, hd]

theorem extractLsb'_one (w : Word) (k : Nat) : w.extractLsb' k 1 = BitVec.ofBool (w.getLsbD k) := by
  rw [BitVec.getLsbD_eq_extractLsb']
  generalize w.extractLsb' k 1 = x
  revert x
  decide

/-- The same for a field of one bit. -/
theorem row_of_bit {w : Word} {b : Bool} {k : Nat} (h : w.getLsbD k = b) : w &&& place 1#1 k = place (BitVec.ofBool b) k :=
  row_of_field (h ▸ extractLsb'_one w k)

/-! ## From a row of the opcode table to the decoder's answer, R90, R97 and R113 -/

/-- The instruction of the same form with the operands the word holds in that form's fields (R84 to R87, R93 to R96). -/
def Instr.readFrom (w : Word) : Instr → Instr
  | .and _ _ _ => .and (regField w 12) (regField w 16) (regField w 0)
  | .eor _ _ _ => .eor (regField w 12) (regField w 16) (regField w 0)
  | .sub _ _ _ => .sub (regField w 12) (regField w 16) (regField w 0)
  | .add _ _ _ => .add (regField w 12) (regField w 16) (regField w 0)
  | .cmp _ _ => .cmp (regField w 16) (regField w 0)
  | .orr _ _ _ => .orr (regField w 12) (regField w 16) (regField w 0)
  | .mov _ _ => .mov (regField w 12) (imm8Field w)
  | .ldr _ _ _ => .ldr (regField w 12) (regField w 16) (imm8Field w)
  | .str _ _ _ => .str (regField w 12) (regField w 16) (imm8Field w)
  | .b _ => .b (w.extractLsb' 0 24)
  | .bx _ => .bx (regField w 0)
  | .cLsl _ _ _ => .cLsl (lowRegField w 0) (lowRegField w 3) (w.extractLsb' 6 5)
  | .cAdd _ _ _ => .cAdd (lowRegField w 0) (lowRegField w 3) (lowRegField w 6)
  | .cSub _ _ _ => .cSub (lowRegField w 0) (lowRegField w 3) (lowRegField w 6)
  | .cMov _ _ => .cMov (lowRegField w 8) (imm8Field w)
  | .cBx _ => .cBx (regField w 3)

theorem Instr.readFrom_row (w : Word) (i : Instr) :
    (i.readFrom w).tableMask = i.tableMask ∧ (i.readFrom w).tableMatch = i.tableMatch
      ∧ (i.readFrom w).mnemonic = i.mnemonic := by
  cases i <;> exact ⟨rfl, rfl, rfl⟩

/-- A wide form's word decodes to it: flipping none of the bits the form ignores leaves the word. -/
theorem decodeWide_of_wideForm {w : Word} {i : Instr} (h : WideForm w i) : decodeWide w = .instr i := by
  simpa using decodeWide_flip_ignoredBits 0#32 h

/-- The compact BX pattern has `010` in `h[15:13]`, where no other compact row has it. -/
theorem ne_cBxPattern_of_top {w : Word} {x : BitVec 3} (h : w.extractLsb' 13 3 = x) (hx : x ≠ 0b010#3) :
    w &&& 0xFF87#32 ≠ 0x4700#32 :=
  fun hp => hx (h.symm.trans (field_of_row hp 13 3 rfl rfl))

theorem decodeCompact_of_shiftAddSub {w : Word} (hhigh : w.extractLsb' 16 16 = 0#16) (htop : w.extractLsb' 13 3 = 0b000#3) :
    decodeCompact w = decodeShiftAddSub w := by
  have hbx := ne_cBxPattern_of_top htop (by decide)
  simp [decodeCompact, hhigh, hbx, htop]

/-- ADD and SUB share all of bits 31 to 10. -/
theorem decodeCompact_of_addSub {w : Word} (h : w.extractLsb' 10 22 = 0b110#22) :
    decodeCompact w =
      if w.getLsbD 9 = false then .instr (.cAdd (lowRegField w 0) (lowRegField w 3) (lowRegField w 6))
      else .instr (.cSub (lowRegField w 0) (lowRegField w 3) (lowRegField w 6)) := by
  have hrow : w &&& 0xFFFFFC00#32 = 0x1800#32 := row_of_field h
  have hhigh : w.extractLsb' 16 16 = 0#16 := field_of_row hrow 16 16 rfl rfl
  have htop : w.extractLsb' 13 3 = 0b000#3 := field_of_row hrow 13 3 rfl rfl
  have hop : w.extractLsb' 11 2 = 0b11#2 := field_of_row hrow 11 2 rfl rfl
  have h10 : w.getLsbD 10 = false := bit_of_row hrow 10 rfl rfl
  have hlsl : w.extractLsb' 11 2 ≠ 0b00#2 := by simp [hop]
  rw [decodeCompact_of_shiftAddSub hhigh htop, decodeShiftAddSub, if_neg hlsl, if_pos ⟨hop, h10⟩]

theorem decodeCompact_of_cMov_row {w : Word} (h : w &&& 0xFFFFF800#32 = 0x2000#32) :
    decodeCompact w = .instr (.cMov (lowRegField w 8) (imm8Field w)) := by
  have hhigh : w.extractLsb' 16 16 = 0#16 := field_of_row h 16 16 rfl rfl
  have htop : w.extractLsb' 13 3 = 0b001#3 := field_of_row h 13 3 rfl rfl
  have hop : w.extractLsb' 11 5 = 0b00100#5 := field_of_row h 11 5 rfl rfl
  have hbx := ne_cBxPattern_of_top htop (by decide)
  simp [decodeCompact, hhigh, hbx, htop, hop]

theorem decodeCompact_of_cBx_row {w : Word} (h : w &&& 0xFFFFFF87#32 = 0x4700#32) :
    decodeCompact w = .instr (.cBx (regField w 3)) := by
  have hhigh : w.extractLsb' 16 16 = 0#16 := field_of_row h 16 16 rfl rfl
  have hbx : w &&& 0xFF87#32 = 0x4700#32 := by
    have hcut := congrArg (· &&& 0xFF87#32) h
    simpa [BitVec.and_assoc] using hcut
  simp [decodeCompact, hhigh, hbx]

/-- A word that selects the row of an instruction decodes, in that instruction's mode, to the row's form with the word's operands. -/
theorem decode_of_row {i : Instr} {w : Word} (h : w &&& i.tableMask = i.tableMatch) :
    decode i.mode w = .instr (i.readFrom w) := by
  cases i <;> simp only [Instr.tableMask, Instr.tableMatch] at h
  case and => exact decodeWide_of_wideForm (.and (field_of_row h 25 3 rfl rfl) (field_of_row h 21 4 rfl rfl))
  case eor => exact decodeWide_of_wideForm (.eor (field_of_row h 25 3 rfl rfl) (field_of_row h 21 4 rfl rfl))
  case sub => exact decodeWide_of_wideForm (.sub (field_of_row h 25 3 rfl rfl) (field_of_row h 21 4 rfl rfl))
  case add => exact decodeWide_of_wideForm (.add (field_of_row h 25 3 rfl rfl) (field_of_row h 21 4 rfl rfl))
  case cmp => exact decodeWide_of_wideForm (.cmp (field_of_row h 25 3 rfl rfl) (field_of_row h 21 4 rfl rfl))
  case orr => exact decodeWide_of_wideForm (.orr (field_of_row h 25 3 rfl rfl) (field_of_row h 21 4 rfl rfl))
  case mov => exact decodeWide_of_wideForm (.mov (field_of_row h 25 3 rfl rfl) (field_of_row h 21 4 rfl rfl))
  case ldr => exact decodeWide_of_wideForm (.ldr (field_of_row h 25 3 rfl rfl) (bit_of_row h 20 rfl rfl))
  case str => exact decodeWide_of_wideForm (.str (field_of_row h 25 3 rfl rfl) (bit_of_row h 20 rfl rfl))
  case b => exact decodeWide_of_wideForm (.b (field_of_row h 25 3 rfl rfl))
  case bx => exact decodeWide_of_wideForm (.bx h)
  case cLsl =>
    have hop : w.extractLsb' 11 2 = 0b00#2 := field_of_row h 11 2 rfl rfl
    exact (decodeCompact_of_shiftAddSub (field_of_row h 16 16 rfl rfl) (field_of_row h 13 3 rfl rfl)).trans (if_pos hop)
  case cAdd =>
    have h9 : w.getLsbD 9 = false := bit_of_row h 9 rfl rfl
    exact (decodeCompact_of_addSub (field_of_row h 10 22 rfl rfl)).trans (if_pos h9)
  case cSub =>
    have h9 : w.getLsbD 9 = true := bit_of_row h 9 rfl rfl
    exact (decodeCompact_of_addSub (field_of_row h 10 22 rfl rfl)).trans (if_neg (by simp [h9]))
  case cMov => exact decodeCompact_of_cMov_row h
  case cBx => exact decodeCompact_of_cBx_row h

/-! ## From the decoder's answer to its row -/

theorem row_of_wideForm {w : Word} {i : Instr} (h : WideForm w i) : w &&& i.tableMask = i.tableMatch := by
  cases h with
  | and hclass hop | eor hclass hop | sub hclass hop | add hclass hop | cmp hclass hop | orr hclass hop | mov hclass hop =>
    exact row_or (row_of_field hclass) (row_of_field hop)
  | ldr hclass hbit | str hclass hbit => exact row_or (row_of_field hclass) (row_of_bit hbit)
  | b hclass => exact row_of_field hclass
  | bx hpattern => exact hpattern

theorem row_of_decodeShiftAddSub {w : Word} {i : Instr} (hhigh : w.extractLsb' 16 16 = 0#16)
    (htop : w.extractLsb' 13 3 = 0b000#3) (h : decodeShiftAddSub w = .instr i) : w &&& i.tableMask = i.tableMatch := by
  have htop16 := row_or (row_of_field hhigh) (row_of_field htop)
  unfold decodeShiftAddSub at h
  split_ifs at h with hlsl hop h9 <;> cases h
  · exact row_or htop16 (row_of_field hlsl)
  · exact row_or htop16 (row_or (row_of_field hop.1) (row_or (row_of_bit hop.2) (row_of_bit h9)))
  · exact row_or htop16 (row_or (row_of_field hop.1) (row_or (row_of_bit hop.2) (row_of_bit (Bool.eq_true_of_not_eq_false h9))))

theorem row_of_decodeCompact {w : Word} {i : Instr} (h : decodeCompact w = .instr i) : w &&& i.tableMask = i.tableMatch := by
  unfold decodeCompact at h
  split_ifs at h with hhigh hbx htop hmov
  · cases h
    exact row_or (row_of_field (not_not.1 hhigh)) hbx
  · exact row_of_decodeShiftAddSub (not_not.1 hhigh) htop h
  · cases h
    exact row_or (row_of_field (not_not.1 hhigh)) (row_of_field hmov)

theorem row_of_decode {m : Mode} {w : Word} {i : Instr} (h : decode m w = .instr i) : w &&& i.tableMask = i.tableMatch := by
  cases m with
  | wide => exact row_of_wideForm (wideForm_of_decodeWide h)
  | compact => exact row_of_decodeCompact h

/-- Settles O15: a decoded instruction comes from its row and a row's word from its form, so UNKNOWN is what selects no row. -/
theorem decoderFollowsTheOpcodeTable : Obligations.DecoderFollowsTheOpcodeTable := by
  refine ⟨fun m w i h => ⟨Machine.mode_of_decode h, row_of_decode h⟩, fun m w i hm hrow => ?_, fun m w => ⟨?_, ?_⟩⟩
  · subst hm
    exact ⟨_, decode_of_row hrow, i.readFrom_row w⟩
  · rintro hunknown i rfl hrow
    cases hunknown.symm.trans (decode_of_row hrow)
  · intro hnone
    cases h : decode m w with
    | unknown => rfl
    | instr i => exact absurd (row_of_decode h) (hnone i (Machine.mode_of_decode h))

/-! ## The operands of a canonical word, R110 -/

theorem extractLsb'_place_self {n : Nat} (x : BitVec n) {lo : Nat} (h : lo + n ≤ 32) : (place x lo).extractLsb' lo n = x := by
  refine BitVec.eq_of_getLsbD_eq fun k hk => ?_
  have hk32 : lo + k < 32 := by omega
  rw [BitVec.getLsbD_extractLsb', getLsbD_place]
  simp [hk, hk32]

theorem extractLsb'_place_of_disjoint {n : Nat} (x : BitVec n) {lo lo' m : Nat} (h : lo' + m ≤ lo ∨ lo + n ≤ lo') :
    (place x lo).extractLsb' lo' m = 0#m := by
  refine BitVec.eq_of_getLsbD_eq fun k hk => ?_
  rw [BitVec.getLsbD_extractLsb', getLsbD_place, BitVec.getLsbD_zero]
  obtain h | h := h
  · have hlt : lo' + k < lo := by omega
    simp [hlt]
  · have hout : n ≤ lo' + k - lo := by omega
    simp [BitVec.getLsbD_of_ge _ _ hout]

/-- Every operand of the canonical word is read back: its field holds it alone, the base and the other fields being clear there. -/
theorem Instr.readFrom_encode (i : Instr) : i.readFrom (encode i) = i := by
  cases i <;>
    simp [Instr.readFrom, encode, encodeDataRegister, encodeLoadStore, encodeAddSub, placeReg, placeLow, regField, lowRegField,
      imm8Field, BitVec.extractLsb'_or, extractLsb'_place_self, extractLsb'_place_of_disjoint]

/-- The canonical word of every instruction selects the instruction's own row (R110, R113). -/
theorem row_of_encode (i : Instr) : encode i &&& i.tableMask = i.tableMatch := by
  suffices hrow : Laws.OpcodeRow.Statement i from beq_iff_eq.1 hrow.1
  cases i with
  | and rd rn rm => exact Laws.OpcodeRow.and rd rn rm
  | eor rd rn rm => exact Laws.OpcodeRow.eor rd rn rm
  | sub rd rn rm => exact Laws.OpcodeRow.sub rd rn rm
  | add rd rn rm => exact Laws.OpcodeRow.add rd rn rm
  | cmp rn rm => exact Laws.OpcodeRow.cmp rn rm
  | orr rd rn rm => exact Laws.OpcodeRow.orr rd rn rm
  | mov rd imm => exact Laws.OpcodeRow.mov rd imm
  | ldr rd rn imm => exact Laws.OpcodeRow.ldr rd rn imm
  | str rd rn imm => exact Laws.OpcodeRow.str rd rn imm
  | b off => exact Laws.OpcodeRow.b off
  | bx rm => exact Laws.OpcodeRow.bx rm
  | cLsl rd rn shamt => exact Laws.OpcodeRow.cLsl rd rn shamt
  | cAdd rd rn rm => exact Laws.OpcodeRow.cAdd rd rn rm
  | cSub rd rn rm => exact Laws.OpcodeRow.cSub rd rn rm
  | cMov rd imm => exact Laws.OpcodeRow.cMov rd imm
  | cBx rm => exact Laws.OpcodeRow.cBx rm

/-- Settles O14: the canonical word selects the instruction's row, and the row's fields of it hold the instruction's operands. -/
theorem decodingUndoesEncoding : Obligations.DecodingUndoesEncoding := by
  intro i
  have hread : decode i.mode (encode i) = .instr (i.readFrom (encode i)) := decode_of_row (row_of_encode i)
  rwa [i.readFrom_encode] at hread

/-! ## A stored value against the 16-bit bound, R107 -/

theorem extractLsb'_eq_zero_of_lt {w : Word} {lo : Nat} (h : uint w < 2 ^ lo) (n : Nat) : w.extractLsb' lo n = 0#n := by
  refine BitVec.eq_of_toNat_eq ?_
  rw [BitVec.extractLsb'_toNat, Nat.shiftRight_eq_zero _ _ h, Nat.zero_mod, BitVec.toNat_zero]

theorem lt_of_high_eq_zero {w : Word} (h : w.extractLsb' 16 16 = 0#16) : uint w < 2 ^ 16 := by
  have hnat := congrArg BitVec.toNat h
  rw [BitVec.extractLsb'_toNat, Nat.shiftRight_eq_div_pow, BitVec.toNat_zero] at hnat
  have hw : w.toNat < 2 ^ 32 := w.isLt
  change w.toNat < 2 ^ 16
  omega

/-- Settles O17: a 16-bit value has 0 in every field above bit 15, which is AND with `Rn` = 0; the compact decoder tests that the
bits above bit 15 are 0. -/
theorem modeAloneSelectsTheDecoder : Obligations.ModeAloneSelectsTheDecoder := by
  refine ⟨fun w hw => ?_, fun w hw => ?_⟩
  · have hclass : classField w = 0b000#3 := extractLsb'_eq_zero_of_lt (hw.trans (by decide)) 3
    have hop : opField w = 0b0000#4 := extractLsb'_eq_zero_of_lt (hw.trans (by decide)) 4
    have hrn : regField w 16 = 0 := congrArg BitVec.toFin (extractLsb'_eq_zero_of_lt hw 4)
    rw [← hrn]
    exact decodeWide_of_wideForm (.and hclass hop)
  · exact if_pos fun hhigh => Nat.not_lt.2 hw (lt_of_high_eq_zero hhigh)

/-- Settles O18: each word is decoded. -/
theorem handAssembledWordsDecode : Obligations.HandAssembledWordsDecode := by
  unfold Obligations.HandAssembledWordsDecode
  decide

end Sys2Proof
end

section
/-!
PROOFS of the statements about the instruction store and main memory in their own right (R33, R53): the offset of a wide entry, and the
one canonical form of a memory.
-/

namespace Sys2Proof.Machine

/-! ## A store of 32-bit entries, R53 -/

theorem resolve_of_wide {is : List Entry} {p : Nat} (hwide : ∀ e ∈ is, e.bytes = 4) (hp : p < totalBytes is) :
    resolve is p = some (p / 4) := by
  induction is generalizing p with
  | nil => exact absurd hp (Nat.not_lt_zero p)
  | cons e es ih =>
    obtain ⟨he, hes⟩ := List.forall_mem_cons.1 hwide
    rw [totalBytes_cons, he] at hp
    rcases Nat.lt_or_ge p 4 with hlt | hge
    · rw [resolve_cons_of_lt es (he ▸ hlt), Nat.div_eq_of_lt hlt]
    · have hquot : (p - 4) / 4 + 1 = p / 4 := by omega
      rw [resolve_cons_of_le es (he ▸ hge), he, ih hes (by omega), Option.map_some, hquot]

/-- Settles O12: each entry is 4 bytes long, so the first one covers the offsets below 4 and the rest are 4 further on. -/
theorem wideStoreResolvesByDivision : Obligations.WideStoreResolvesByDivision := by
  intro is p hwide hp
  have hbytes : ∀ e ∈ is, e.bytes = 4 := fun e he => by rw [Entry.bytes, hwide e he, Width.bytes]
  exact resolve_of_wide hbytes hp

/-! ## The canonical form of a memory, R33 -/

/-- A canonical memory lists exactly the bytes that do not read as unlisted. -/
theorem Memory.mem_iff_readByte {m : Memory} (hm : m.wf) (a : Nat) (u : Byte) :
    (a, u) ∈ m ↔ m.readByte a = u ∧ u ≠ unlistedByte := by
  obtain ⟨hsorted, hcells⟩ := hm
  induction m with
  | nil => simp [eq_comm]
  | cons c m ih =>
    obtain ⟨b, v⟩ := c
    obtain ⟨hb, hsorted⟩ := List.pairwise_cons.1 hsorted
    obtain ⟨⟨hv, -⟩, hcells⟩ := List.forall_mem_cons.1 hcells
    rw [List.mem_cons, Memory.readByte_cons, Prod.mk.injEq, ih hsorted hcells]
    by_cases hab : a = b
    · subst hab
      have hunlisted : Memory.readByte m a = unlistedByte := Memory.readByte_of_lt hb
      rw [if_pos rfl, hunlisted]
      constructor
      · rintro (⟨-, rfl⟩ | ⟨rfl, hu⟩)
        · exact ⟨rfl, hv⟩
        · exact absurd rfl hu
      · exact fun h => .inl ⟨rfl, h.1.symm⟩
    · simp [hab]

/-- Settles O52: memories that read alike list the same cells, and in one order. -/
theorem canonicalMemoriesThatReadAlikeAreEqual : Obligations.CanonicalMemoriesThatReadAlikeAreEqual := by
  intro m m' hm hm' hread
  have hirrefl : Std.Irrefl fun c d : Host.Cell => c.1 < d.1 := ⟨fun c => Nat.lt_irrefl c.1⟩
  have hantisymm : Std.Antisymm fun c d : Host.Cell => c.1 < d.1 := ⟨fun _ _ h h' => absurd h' (Nat.lt_asymm h)⟩
  refine hm.1.eq_of_mem_iff hm'.1 fun c => ?_
  rw [Memory.mem_iff_readByte hm c.1 c.2, Memory.mem_iff_readByte hm' c.1 c.2, hread]

end Sys2Proof.Machine
end

section
/-!
PROOFS of the statements about single accesses to the cache hierarchy (R199, R205, R51): after a miss the line is installed, so that
the same block hits, and what a data access does to the writebacks.
-/

namespace Sys2Proof.Machine

/-! ## The line a miss installs, R194 to R200 -/

theorem Hierarchy.checkL2_l1i (h : Hierarchy) (a : Nat) : (h.checkL2 a).l1i = h.l1i := by
  obtain ⟨-, hl1i, -⟩ := h.checkL2_frame a
  exact hl1i

theorem Hierarchy.checkL2_iMiss (h : Hierarchy) (a : Nat) : (h.checkL2 a).iMiss = h.iMiss := by
  obtain ⟨-, -, -, hi, -⟩ := h.checkL2_frame a
  exact hi

theorem Hierarchy.checkL2_writebacks (h : Hierarchy) (a : Nat) : (h.checkL2 a).writebacks = h.writebacks := by
  obtain ⟨-, -, -, -, -, hw, -⟩ := h.checkL2_frame a
  exact hw

theorem exists_line_of_lt {lines : List Line} {i : Nat} (hi : i < lines.length) : ∃ l, lines[i]? = some l :=
  ⟨_, getElem?_eq_lineAt hi⟩

/-- After a check of L2 the block's line is there. -/
theorem Hierarchy.checkL2_installs {h : Hierarchy} {a : Nat}
    (hi : cacheIndex a h.geometry.l2BlockSize h.geometry.l2Slots < h.l2.length) :
    ∃ l, (h.checkL2 a).l2[cacheIndex a h.geometry.l2BlockSize h.geometry.l2Slots]? = some l
      ∧ l.valid = true ∧ l.tag = cacheTag a h.geometry.l2BlockSize h.geometry.l2Slots := by
  obtain ⟨l, hline⟩ := exists_line_of_lt hi
  by_cases hit : l.valid = true ∧ l.tag = cacheTag a h.geometry.l2BlockSize h.geometry.l2Slots
  · rw [Hierarchy.checkL2_of_hit hline hit]
    exact ⟨_, hline, hit⟩
  · rw [Hierarchy.checkL2_of_miss hline hit]
    exact ⟨_, List.getElem?_set_self hi, rfl, rfl⟩

/-- A second check of L2, at any address of the same block, changes nothing. -/
theorem Hierarchy.checkL2_of_checkL2 {h : Hierarchy} {a b : Nat}
    (hi : cacheIndex a h.geometry.l2BlockSize h.geometry.l2Slots < h.l2.length)
    (hblock : a / h.geometry.l2BlockSize = b / h.geometry.l2BlockSize) : (h.checkL2 a).checkL2 b = h.checkL2 a := by
  obtain ⟨l, hline, hvalid, htag⟩ := Hierarchy.checkL2_installs hi
  have hg : (h.checkL2 a).geometry = h.geometry := (h.checkL2_frame a).1
  rw [cacheIndex, hblock] at hline
  rw [cacheTag, hblock] at htag
  refine Hierarchy.checkL2_of_hit (l := l) ?_ ⟨hvalid, ?_⟩ <;> rw [hg]
  · exact hline
  · exact htag

/-- After an instruction access the block's line is in L1I. -/
theorem Hierarchy.accessInstruction_installs {h : Hierarchy} {a : Nat}
    (hi : cacheIndex a h.geometry.blockSize h.geometry.l1iSlots < h.l1i.length) :
    ∃ l, (h.accessInstruction a).l1i[cacheIndex a h.geometry.blockSize h.geometry.l1iSlots]? = some l
      ∧ l.valid = true ∧ l.tag = cacheTag a h.geometry.blockSize h.geometry.l1iSlots := by
  obtain ⟨l, hline⟩ := exists_line_of_lt hi
  by_cases hit : l.valid = true ∧ l.tag = cacheTag a h.geometry.blockSize h.geometry.l1iSlots
  · rw [Hierarchy.accessInstruction_of_hit hline hit]
    exact ⟨_, hline, hit⟩
  · rw [Hierarchy.accessInstruction_of_miss hline hit, Hierarchy.checkL2_l1i]
    exact ⟨_, List.getElem?_set_self hi, rfl, rfl⟩

/-! ## A cold fetch and a repeated one, R205 -/

/-- An invalid line is no hit, whatever the tag (R194). -/
theorem Line.invalid_not_hit (tag : Nat) : ¬(Line.invalid.valid = true ∧ Line.invalid.tag = tag) := by
  simp [Line.invalid]

theorem Hierarchy.l2Miss_checkL2_of_invalid {h : Hierarchy} {a : Nat}
    (hl : h.l2[cacheIndex a h.geometry.l2BlockSize h.geometry.l2Slots]? = some Line.invalid) :
    (h.checkL2 a).l2Miss = h.l2Miss + 1 := by
  rw [Hierarchy.checkL2_of_miss hl (Line.invalid_not_hit _)]

/-- Settles O54: a cold line is invalid, so both levels miss; a fetch leaves its block's line in L1I, so the repeat hits. -/
theorem coldFetchMissesAndRepeatHits : Obligations.ColdFetchMissesAndRepeatHits := by
  refine ⟨fun g hg => ?_, fun h a hw => ?_⟩
  · obtain ⟨hpos, -, hpos2⟩ := Geometry.slots_pos hg
    have lineI : (Hierarchy.cold g).l1i[cacheIndex 0 g.blockSize g.l1iSlots]? = some Line.invalid :=
      List.getElem?_replicate_of_lt (Nat.mod_lt _ hpos)
    have line2 : (Hierarchy.cold g).l2[cacheIndex 0 g.l2BlockSize g.l2Slots]? = some Line.invalid :=
      List.getElem?_replicate_of_lt (Nat.mod_lt _ hpos2)
    rw [Hierarchy.accessInstruction_of_miss lineI (Line.invalid_not_hit _)]
    exact ⟨Hierarchy.checkL2_iMiss _ 0, Hierarchy.l2Miss_checkL2_of_invalid line2⟩
  · obtain ⟨hI, -, -⟩ := Hierarchy.wf_index_lt hw a
    obtain ⟨l, hline, hit⟩ := Hierarchy.accessInstruction_installs hI
    have hg : (h.accessInstruction a).geometry = h.geometry := (h.accessInstruction_frame a).1
    rw [← hg] at hline hit
    exact Hierarchy.accessInstruction_of_hit hline hit

/-! ## L2 is shared, R51 -/

/-- Settles O55: a miss in either L1 cache is a check of L2 at the same address, and a second check of the block hits. -/
theorem sharedLevelTwoIgnoresTheSpace : Obligations.SharedLevelTwoIgnoresTheSpace := by
  intro h a b hw hblock
  obtain ⟨-, -, h2⟩ := Hierarchy.wf_index_lt hw a
  refine ⟨fun isStore hmiss => ?_, fun hmiss => ?_⟩
  · obtain e | ⟨i, -, e⟩ | ⟨i, t, w, -, e⟩ := h.accessData_cases a isStore <;> rw [e] at hmiss ⊢
    · simp at hmiss
    · simp at hmiss
    · exact Hierarchy.checkL2_of_checkL2 h2 hblock
  · obtain e | ⟨i, t, e⟩ := h.accessInstruction_cases a <;> rw [e] at hmiss ⊢
    · simp at hmiss
    · exact Hierarchy.checkL2_of_checkL2 h2 hblock

/-! ## Writebacks, R199 -/

/-- Settles O56: a hit counts nothing, and a miss counts a writeback if the line it replaces is valid and dirty; the check of L2
counts none. -/
theorem writebackCountsExactlyDirtyEvictions : Obligations.WritebackCountsExactlyDirtyEvictions := by
  intro h a isStore l hline
  by_cases hit : l.valid = true ∧ l.tag = cacheTag a h.geometry.blockSize h.geometry.l1dSlots
  · rw [if_pos (.inl hit), Hierarchy.accessData_of_hit hline hit]
    cases isStore <;> rfl
  · rw [Hierarchy.accessData_of_miss hline hit, Hierarchy.checkL2_writebacks]
    by_cases hdirty : l.valid = true ∧ l.dirty = true
    · rw [if_pos hdirty, if_neg]
      rintro (hhit | hinvalid | hclean)
      · exact hit hhit
      · exact Bool.false_ne_true (hinvalid.symm.trans hdirty.1)
      · exact Bool.false_ne_true (hclean.symm.trans hdirty.2)
    · rw [if_neg hdirty, if_pos]
      exact .inr ((not_and_or.1 hdirty).imp Bool.eq_false_of_not_eq_true Bool.eq_false_of_not_eq_true)

end Sys2Proof.Machine
end

section
/-!
PROOFS of the statements about what an execution leaves unchanged (R28, R130, R151, R152, R160 to R162, R170), one per kind of
instruction, each from the shapes an execution can have.
-/

namespace Sys2Proof.Machine

/-! ## The data-processing forms, R130 to R137 and R170 -/

/-- A data-processing form can fault only over a destination of 15 (R244). -/
theorem faultRaised_of_isDataForm {i : Instr} (s : State) (hi : isDataForm i = true) (hw : writtenReg i ≠ some 15) :
    faultRaised i s = none := by
  cases hfault : faultRaised i s with
  | none => rfl
  | some f =>
    cases f with
    | pcWrite r =>
      obtain ⟨-, -, h15⟩ := (faultRaised_eq_pcWrite_iff i s r).1 hfault
      exact absurd h15 hw
    | memRange ea =>
      obtain ⟨-, ⟨_, _, _, rfl, -⟩ | ⟨_, _, _, rfl, -⟩⟩ := (faultRaised_eq_memRange_iff i s ea).1 hfault <;> cases hi

theorem ExecShape.cache_and_mem_of_isDataForm {i : Instr} {s t : State} (h : ExecShape i s t) (hi : isDataForm i = true) :
    t.cache = s.cache ∧ t.mem = s.mem := by
  cases h with
  | load rd rn imm hload => subst hload; cases hi
  | store rd rn imm hstore => subst hstore; cases hi
  | _ => exact ⟨rfl, rfl⟩

/-- No execution but a branch's writes a register that is not its destination, and none writes register 15. -/
theorem ExecShape.readReg_eq {i : Instr} {s t : State} (h : ExecShape i s t) (hi : isBranch i = false) {r : Reg}
    (hr : writtenReg i ≠ some r ∨ r = 15) : t.readReg r = s.readReg r := by
  obtain hr | rfl := hr
  · cases h with
    | result rd x _ hw => exact s.readReg_writeResult_of_ne x (fun e => hr (e ▸ hw))
    | load rd rn imm hload =>
      subst hload
      exact s.readReg_writeReg_of_ne _ (fun e => hr (congrArg some e.symm))
    | jump off x hb => subst hb; cases hi
    | exchange rm x m hbx => obtain rfl | rfl := hbx <;> cases hi
    | fault | flags | store => rfl
  · exact h.readReg_pc_eq hi

/-- Settles O35: a data-processing form is no branch, load or store, and it touches the latch for a destination of 15 alone. -/
theorem dataFormsFrame : Obligations.DataFormsFrame := by
  intro i s t hi hexec
  have hshape := ExecShape.of_exec hexec
  obtain ⟨hrun, hstore, hc, hv⟩ := hshape.fixed_fields
  obtain ⟨hcache, hmem⟩ := hshape.cache_and_mem_of_isDataForm hi
  have hbranch : isBranch i = false := isBranch_of_writesFlags hi
  have hmode : t.mode = s.mode :=
    hshape.mode_eq (isBranchExchange_of_setsPc ((setsPc_eq_isBranch i).trans hbranch))
  exact ⟨fun r hr => hshape.readReg_eq hbranch hr, fun hw => hshape.flt_eq (faultRaised_of_isDataForm s hi hw), hc, hv, hmode,
    hrun, hstore, hcache, fun a => by rw [hmem]⟩

/-! ## LDR and STR, R151 and R152 -/

theorem ExecShape.flags_eq {i : Instr} {s t : State} (h : ExecShape i s t) (hi : writesFlags i = false) :
    t.z = s.z ∧ t.n = s.n := by
  cases h with
  | result rd x _ _ hf => cases hi.symm.trans hf
  | flags rn rm x hcmp => subst hcmp; cases hi
  | _ => exact ⟨rfl, rfl⟩

/-- No execution touches the instruction side of the cache hierarchy. -/
theorem ExecShape.instructionSide_eq {i : Instr} {s t : State} (h : ExecShape i s t) :
    t.cache.geometry = s.cache.geometry ∧ t.cache.l1i = s.cache.l1i ∧ t.cache.iMiss = s.cache.iMiss := by
  obtain hcache | ⟨a, isStore, hcache⟩ := h.cache_eq_or_accessData <;> rw [hcache]
  · exact ⟨rfl, rfl, rfl⟩
  · obtain ⟨hg, hl1i, hi, -⟩ := s.cache.accessData_frame a isStore
    exact ⟨hg, hl1i, hi⟩

/-- Settles O36: the one register a load writes is its destination, and no load is a store. -/
theorem loadFrame : Obligations.LoadFrame := by
  intro rd rn imm s t hexec
  have hshape := ExecShape.of_exec hexec
  obtain ⟨hrun, hstore, hc, hv⟩ := hshape.fixed_fields
  obtain ⟨hz, hn⟩ := hshape.flags_eq rfl
  obtain ⟨hg, hl1i, hiMiss⟩ := hshape.instructionSide_eq
  have hmem : t.mem = s.mem := by
    obtain hmem | ⟨_, _, _, hstr, -⟩ := hshape.mem_cases
    · exact hmem
    · cases hstr
  have hreg : ∀ r : Reg, r ≠ rd ∨ r = 15 → t.readReg r = s.readReg r := fun r hr =>
    hshape.readReg_eq rfl (hr.imp_left fun hne e => hne (Option.some.inj e).symm)
  exact ⟨hreg, hz, hn, hc, hv, hshape.mode_eq rfl, hrun, hstore, hshape.flt_eq, hg, hl1i, hiMiss, fun a => by rw [hmem]⟩

/-- Settles O37: a store writes no register, and of the memory the one word that contains its effective address, or nothing. -/
theorem storeFrame : Obligations.StoreFrame := by
  intro rd rn imm s t hexec
  have hshape := ExecShape.of_exec hexec
  obtain ⟨hrun, hstore, hc, hv⟩ := hshape.fixed_fields
  obtain ⟨hz, hn⟩ := hshape.flags_eq rfl
  obtain ⟨hg, hl1i, hiMiss⟩ := hshape.instructionSide_eq
  have hreg : ∀ r : Reg, t.readReg r = s.readReg r := fun r => hshape.readReg_eq rfl (.inl nofun)
  refine ⟨hreg, hz, hn, hc, hv, hshape.mode_eq rfl, hrun, hstore, hshape.flt_eq, hg, hl1i, hiMiss, fun a ha => ?_,
    fun hfault a => ?_⟩
  · obtain hmem | ⟨_, _, _, hstr, -, -, hmem⟩ := hshape.mem_cases <;> rw [hmem]
    cases hstr
    exact Memory.readByte_setWord_of_outside _ _ (by omega)
  · obtain ⟨f, hf⟩ := Option.ne_none_iff_exists'.1 hfault
    cases (exec_of_faultRaised hf).symm.trans hexec
    rfl

/-! ## B and BX, R160 to R162 -/

/-- A branch writes the program counter, and a BX the mode after it. -/
theorem ExecShape.of_isBranch {i : Instr} {s t : State} (h : ExecShape i s t) (hi : isBranch i = true) :
    ∃ x m, t = (s.setPc x).setMode m := by
  cases h with
  | jump off x => exact ⟨x, s.mode, rfl⟩
  | exchange rm x m => exact ⟨x, m, rfl⟩
  | fault f hf => cases (isBranch_of_fault hf).symm.trans hi
  | result rd x _ _ hf => cases (isBranch_of_writesFlags hf).symm.trans hi
  | flags rn rm x hcmp => subst hcmp; cases hi
  | load rd rn imm hload => subst hload; cases hi
  | store rd rn imm hstore => subst hstore; cases hi

/-- Settles O38: writing the program counter and the mode leaves every other field. -/
theorem branchFrame : Obligations.BranchFrame := by
  intro i s t hi hexec
  have hshape := ExecShape.of_exec hexec
  have hmode := hshape.mode_eq
  obtain ⟨x, m, rfl⟩ := hshape.of_isBranch hi
  exact ⟨fun r hr => s.readReg_setPc_of_ne x hr, hmode, rfl, rfl, rfl, rfl, rfl, rfl, rfl, rfl, fun _ => rfl⟩

end Sys2Proof.Machine
end

section
/-!
PROOFS of the statements about reset and the host's calls (R38, R232 to R235): the invariant at reset, which calls of `load` and of the
two preloads are accepted, and that every accepted call keeps the invariant.
-/

namespace Sys2Proof.Machine

/-! ## Reset, R38 -/

/-- A reset machine meets the invariant: its memory lists nothing, its caches are cold, and it runs. -/
theorem State.wf_resetWith {g : Geometry} {is : List Entry} (hg : g.legal = true) (his : programWf is) :
    (State.resetWith g is).wf :=
  ⟨⟨List.Pairwise.nil, by simp [State.resetWith]⟩, his, rfl, rfl, Hierarchy.wf_cold hg, nofun⟩

/-- Settles O2: the geometry of `State.reset` is legal, and the empty program is accepted. -/
theorem resetMeetsTheInvariant : Obligations.ResetMeetsTheInvariant :=
  ⟨fun _ _ => State.wf_resetWith, State.wf_resetWith (by decide) (by decide)⟩

/-! ## A call that checks before it answers -/

section
variable {ε α : Type} {p : Prop} [Decidable p] {r : ε} {x y : α}

theorem refuse_eq_ok_iff {c : Except ε α} : (if p then .error r else c) = .ok y ↔ ¬p ∧ c = .ok y := by
  split <;> simp [*]

theorem accept_eq_ok_iff : (if p then .ok x else .error r) = Except.ok y ↔ p ∧ y = x := by
  split <;> simp [*, eq_comm]

end

/-! ## The entries a `load` makes, R233 -/

/-- The entry of a word and a width that `load` accepts. -/
def loadedEntry (p : Nat × Nat) : Entry :=
  { word := BitVec.ofNat 32 p.1, width := if p.2 = 16 then .w16 else .w32 }

/-- A word that fits a width the store can tag. -/
def loadable (p : Nat × Nat) : Prop := (p.2 = 16 ∨ p.2 = 32) ∧ p.1 < 2 ^ p.2

theorem makeEntry_eq_ok_iff {word bits : Nat} {e : Entry} :
    makeEntry word bits = .ok e ↔ loadable (word, bits) ∧ e = loadedEntry (word, bits) := by
  by_cases h16 : bits = 16
  · subst h16
    exact accept_eq_ok_iff.trans (and_congr_left fun _ => (and_iff_right (.inl rfl)).symm)
  · by_cases h32 : bits = 32
    · subst h32
      exact accept_eq_ok_iff.trans (and_congr_left fun _ => (and_iff_right (.inr rfl)).symm)
    · simp [makeEntry, widthOf?, loadable, h16, h32]

/-- Two lists of one length make a store of their pairs, if each pair is accepted. -/
theorem makeEntries_eq_ok_iff {ws bs : List Nat} {es : List Entry} :
    makeEntries ws bs = .ok es ↔
      ws.length = bs.length ∧ (∀ p ∈ ws.zip bs, loadable p) ∧ es = (ws.zip bs).map loadedEntry := by
  induction ws generalizing bs es with
  | nil => cases bs <;> simp [makeEntries, eq_comm]
  | cons w ws ih =>
    cases bs with
    | nil => simp [makeEntries]
    | cons b bs =>
      have hcons : makeEntries (w :: ws) (b :: bs) = .ok es ↔
          ∃ e es', makeEntry w b = .ok e ∧ makeEntries ws bs = .ok es' ∧ es = e :: es' := by
        rw [makeEntries]
        cases makeEntry w b <;> cases makeEntries ws bs <;> simp [eq_comm]
      simp only [hcons, makeEntry_eq_ok_iff, ih]
      simp only [List.length_cons, List.zip_cons_cons, List.forall_mem_cons, List.map_cons]
      constructor
      · rintro ⟨e, es', ⟨hp, rfl⟩, ⟨hlen, hps, rfl⟩, rfl⟩
        exact ⟨congrArg _ hlen, ⟨hp, hps⟩, rfl⟩
      · rintro ⟨hlen, ⟨hp, hps⟩, rfl⟩
        exact ⟨_, _, ⟨hp, rfl⟩, ⟨Nat.succ.inj hlen, hps, rfl⟩, rfl⟩

theorem loadedEntry_bytes {p : Nat × Nat} (h : loadable p) : 8 * (loadedEntry p).bytes = p.2 := by
  obtain ⟨w, b⟩ := p
  obtain ⟨rfl | rfl, -⟩ := h <;> rfl

theorem loadedEntry_wf {p : Nat × Nat} (h : loadable p) : (loadedEntry p).wf = true := by
  obtain ⟨w, b⟩ := p
  obtain ⟨rfl | rfl, hfit⟩ := h
  · have hmod : w % 2 ^ 32 < 2 ^ 16 := Nat.lt_of_le_of_lt (Nat.mod_le _ _) hfit
    simpa [Entry.wf, loadedEntry] using hmod
  · rfl

/-- The program's length in bits is the sum of the widths. -/
theorem totalBytes_loadedEntries {ps : List (Nat × Nat)} (hps : ∀ p ∈ ps, loadable p) :
    8 * totalBytes (ps.map loadedEntry) = (ps.map Prod.snd).sum := by
  induction ps with
  | nil => rfl
  | cons p ps ih =>
    obtain ⟨hp, hps⟩ := List.forall_mem_cons.1 hps
    rw [List.map_cons, totalBytes_cons, Nat.mul_add, loadedEntry_bytes hp, ih hps, List.map_cons, List.sum_cons]

theorem totalBytes_loadedEntries_zip {ws bs : List Nat} (hlen : ws.length = bs.length) (hps : ∀ p ∈ ws.zip bs, loadable p) :
    8 * totalBytes ((ws.zip bs).map loadedEntry) = bs.sum := by
  rw [totalBytes_loadedEntries hps, List.map_snd_zip hlen.ge]

/-! ## `load`, R233 -/

theorem load_eq_ok_iff {h h' : Session} {ws bs : List Nat} :
    h.load ws bs = .ok h' ↔ h.started = false ∧ ∃ es, makeEntries ws bs = .ok es ∧ totalBytes es < 2 ^ 31
      ∧ h' = { h with machine := { h.machine with store := es } } := by
  rw [Session.load, refuse_eq_ok_iff, Bool.not_eq_true]
  cases makeEntries ws bs with
  | error r => simp
  | ok es => simp [-Nat.reducePow, accept_eq_ok_iff]

/-- Settles O58: `load` accepts what the making of its entries and the bound on their length accept. -/
theorem loadAcceptsExactlyItsPreconditions : Obligations.LoadAcceptsExactlyItsPreconditions := by
  intro h h' ws bs
  simp only [load_eq_ok_iff, makeEntries_eq_ok_iff]
  constructor
  · rintro ⟨hstarted, es, ⟨hlen, hps, rfl⟩, hshort, rfl⟩
    have htotal := totalBytes_loadedEntries_zip hlen hps
    exact ⟨hstarted, hlen, hps, by omega, rfl⟩
  · rintro ⟨hstarted, hlen, hps, hshort, rfl⟩
    have htotal := totalBytes_loadedEntries_zip hlen hps
    exact ⟨hstarted, _, ⟨hlen, hps, rfl⟩, by omega, rfl⟩

/-! ## The preloads, R234 -/

theorem preloadReg_eq_ok_iff {h h' : Session} {r : Reg} {v : Word} :
    h.preloadReg r v = .ok h' ↔ h.started = false ∧ r ≠ 15 ∧ h' = { h with machine := h.machine.writeReg r v } := by
  rw [Session.preloadReg, refuse_eq_ok_iff, refuse_eq_ok_iff, Bool.not_eq_true, Except.ok.injEq, eq_comm (b := h')]

theorem preloadWord_eq_ok_iff {h h' : Session} {k : Nat} {v : Word} :
    h.preloadWord k v = .ok h' ↔ h.started = false ∧ k < memWords
      ∧ h' = { h with machine := { h.machine with mem := h.machine.mem.setWord k v } } := by
  rw [Session.preloadWord, refuse_eq_ok_iff, accept_eq_ok_iff, Bool.not_eq_true]

/-- Settles O59: each preload asks whether the run has begun and then whether the host may reach the place. -/
theorem preloadReachesRegistersAndMemoryOnly : Obligations.PreloadReachesRegistersAndMemoryOnly :=
  ⟨fun _ _ _ _ => preloadReg_eq_ok_iff, fun _ _ _ _ => preloadWord_eq_ok_iff⟩

/-! ## `configure`, R232 -/

theorem configure_eq_ok_iff {g : Geometry} {h : Session} : configure g = .ok h ↔ g.legal = true ∧ h = Session.fresh g [] := by
  rw [configure, accept_eq_ok_iff]

theorem reconfigure_eq_ok_iff {h h' : Session} {g : Geometry} :
    h.reconfigure g = .ok h' ↔ h.inRun = false ∧ g.legal = true ∧ h' = Session.fresh g h.machine.store := by
  rw [Session.reconfigure, refuse_eq_ok_iff, accept_eq_ok_iff, Bool.not_eq_true]

theorem reconfigure_of_inRun {h : Session} (hrun : h.inRun = true) (g : Geometry) : h.reconfigure g = .error .runInProgress :=
  if_pos hrun

/-! ## Every accepted call keeps the invariant -/

theorem programWf_loadedEntries {ps : List (Nat × Nat)} (hps : ∀ p ∈ ps, loadable p)
    (hshort : totalBytes (ps.map loadedEntry) < 2 ^ 31) : programWf (ps.map loadedEntry) :=
  ⟨List.forall_mem_map.2 fun p hp => loadedEntry_wf (hps p hp), hshort⟩

/-- A running machine's invariant says nothing of its registers. -/
theorem State.wf_of_running {s : State} (hmem : s.mem.wf) (hstore : programWf s.store) (hc : s.c = false) (hv : s.v = false)
    (hcache : s.cache.wf) (hrun : s.run = .running) : s.wf :=
  ⟨hmem, hstore, hc, hv, hcache, fun hhalted => by cases hrun.symm.trans hhalted⟩

section
variable {h h' : Session} (hw : h.machine.wf) (hrun : h.machine.run = .running)
include hw hrun

theorem wf_of_load {ws bs : List Nat} (hload : h.load ws bs = .ok h') : h'.machine.wf := by
  obtain ⟨hmem, -, hc, hv, hcache, -⟩ := hw
  obtain ⟨-, es, hes, hshort, rfl⟩ := load_eq_ok_iff.1 hload
  obtain ⟨-, hps, rfl⟩ := makeEntries_eq_ok_iff.1 hes
  exact State.wf_of_running hmem (programWf_loadedEntries hps hshort) hc hv hcache hrun

theorem wf_of_preloadReg {r : Reg} {v : Word} (hpre : h.preloadReg r v = .ok h') : h'.machine.wf := by
  obtain ⟨hmem, hstore, hc, hv, hcache, -⟩ := hw
  obtain ⟨-, -, rfl⟩ := preloadReg_eq_ok_iff.1 hpre
  exact State.wf_of_running hmem hstore hc hv hcache hrun

theorem wf_of_preloadWord {k : Nat} {v : Word} (hpre : h.preloadWord k v = .ok h') : h'.machine.wf := by
  obtain ⟨hmem, hstore, hc, hv, hcache, -⟩ := hw
  obtain ⟨-, hk, rfl⟩ := preloadWord_eq_ok_iff.1 hpre
  exact State.wf_of_running (Memory.wf_setWord hmem hk v) hstore hc hv hcache hrun

end

/-- Settles O4: a configure gives a reset machine, refused during a run; the calls before a run change what the invariant allows. -/
theorem hostCallsGiveMachinesInTheInvariant : Obligations.HostCallsGiveMachinesInTheInvariant := by
  refine ⟨fun g h hconf => ?_, fun h g hstarted hrun => ?_, fun h h' g hw hconf => ?_, fun h g hidle hg => ?_,
    fun _ _ _ _ hw hrun => wf_of_load hw hrun, fun _ _ _ _ hw hrun => wf_of_preloadReg hw hrun,
    fun _ _ _ _ hw hrun => wf_of_preloadWord hw hrun⟩
  · obtain ⟨hg, rfl⟩ := configure_eq_ok_iff.1 hconf
    exact ⟨State.wf_resetWith hg (by decide), rfl, rfl⟩
  · exact reconfigure_of_inRun (by simp [Session.inRun, hstarted, hrun]) g
  · obtain ⟨-, hstore, -⟩ := hw
    obtain ⟨-, hg, rfl⟩ := reconfigure_eq_ok_iff.1 hconf
    exact ⟨State.wf_resetWith hg hstore, rfl, rfl, rfl⟩
  · have hinRun : h.inRun = false := by
      obtain hstarted | hhalted := hidle
      · simp [Session.inRun, hstarted]
      · simp [Session.inRun, hhalted]
    exact reconfigure_eq_ok_iff.2 ⟨hinRun, hg, rfl⟩

end Sys2Proof.Machine
end
